-- ==== Sys2Proof/Word.lean ====
section
/-! DEFINITION. The word of the machine: one cell, register, stack entry or instruction pointer (rules R7, R8, R35). -/
namespace Sys2Proof

/-- A value of `Int_W` at the spec's default `W = 32` (R7, decision D2; log entry 1): the 32-bit
two's-complement pattern of a signed integer. Read as an integer by `BitVec.toInt`. -/
abbrev Word := BitVec 32

/-- `wrap_W` (R7): the one word congruent to `z` modulo `2^W`. -/
def wrap (z : Int) : Word := BitVec.ofInt 32 z

/-- `MIN` of R7, `-2^(W-1)`. -/
def Word.minValue : Word := wrap (-2147483648)

/-- `MAX` of R7, `2^(W-1) - 1`. -/
def Word.maxValue : Word := wrap 2147483647

end Sys2Proof
end

