-- ==== Sys2Proof/Machine/Alu.lean ====
section
/-! DEFINITION. The integer ALU: exact arithmetic on signed values, reduced by `wrap_W` at the end (R92, R94, R110). -/
namespace Sys2Proof.Machine

/-- R95 -/
def aluAdd (a b : Word) : Word := wrap (a.toInt + b.toInt)

/-- R96 -/
def aluSub (a b : Word) : Word := wrap (a.toInt - b.toInt)

/-- R97 -/
def aluMul (a b : Word) : Word := wrap (a.toInt * b.toInt)

/-- The quotient rounded toward zero, `wrap_W(tdiv(a, b))` (R94, R98; D4). A zero divisor never reaches it. -/
def aluDiv (a b : Word) : Word := wrap (Int.tdiv a.toInt b.toInt)

/-- R99 -/
def aluInc (a : Word) : Word := wrap (a.toInt + 1)

/-- R100 -/
def aluDec (a : Word) : Word := wrap (a.toInt - 1)

/-- R110, R111 -/
def aluAnd (a b : Word) : Word := a &&& b

/-- R110, R112 -/
def aluOr (a b : Word) : Word := a ||| b

/-- R110, R113 -/
def aluXor (a b : Word) : Word := a ^^^ b

/-- R110, R114: every bit inverted. -/
def aluNot (a : Word) : Word := ~~~a

end Sys2Proof.Machine
end

