-- ==== Sys2Proof/Config.lean ====
section
/-! DEFINITION. The names the parameters of R6 are given for, and the free values an implementation or the outside world supplies.
The parameters with a default that a test could show wrong (`MEMCAP`, `OPC`, leniency, the stack's bound, the step limit) are
definitions of Sys2Proof/Machine/Params.lean. -/
namespace Sys2Proof

/-- The 26 mnemonics, in the order of the opcode map (R1, R59). `inp` is IN (`in` is a word of Lean's own). -/
inductive Opcode where
  | load | store | mov | push | pop
  | add | sub | mul | div | inc | dec
  | jmp | jz | jnz | call | ret
  | cmp | and | or | xor | not
  | int | hlt | nop | inp | out
  deriving DecidableEq, Repr

/-- The four kinds of operand cell (R56). -/
inductive OperandKind where
  /-- a register index, checked against `[0, 8)` -/
  | reg
  /-- a memory index, checked against `[0, MEMCAP)` -/
  | addr
  /-- an I/O channel tag, any integer -/
  | port
  /-- the code of INT, any integer -/
  | code
  deriving DecidableEq, Repr

/-- The value the external provider gives to the `n`-th draw, requested on a port (R6 "a free sequence of values in `Int_W` (a
draw per IN)", R116, D13, U18). It has no body: nothing can be proved of any of its values (log entry 5). -/
opaque Config.inputValue (n : Nat) (port : Word) : Word

end Sys2Proof
end

