-- ==== Sys2Proof/Machine/Params.lean ====
section
/-! DEFINITION. The parameters of R6 at their defaults, and the two range checks made from them (R38, R56). -/
namespace Sys2Proof

/-- `NREG`, fixed by the source (R6, R13). -/
def Config.numRegs : Nat := 8

/-- `MEMCAP`, the number of memory cells (R6, R34; D6, log entry 2). -/
def Config.memCap : Nat := 65536

/-- `LENIENT_UNKNOWN_OPCODE` (R6, R62; D15, log entry 4). -/
def Config.lenientUnknownOpcode : Bool := false

/-- `STACK_CAP`: `none` is the unbounded stack (R6, R24; D5, log entry 6). -/
def Config.stackCap : Option Nat := none

/-- `OPC`, the number of each mnemonic: the order of the source's table from 0 (R58, R59; D1, log entry 3). -/
def Config.opc : Opcode → Word
  | .load => 0 | .store => 1 | .mov => 2 | .push => 3 | .pop => 4
  | .add => 5 | .sub => 6 | .mul => 7 | .div => 8 | .inc => 9 | .dec => 10
  | .jmp => 11 | .jz => 12 | .jnz => 13 | .call => 14 | .ret => 15
  | .cmp => 16 | .and => 17 | .or => 18 | .xor => 19 | .not => 20
  | .int => 21 | .hlt => 22 | .nop => 23 | .inp => 24 | .out => 25

namespace Machine

/-- A valid memory index (R38): `0 <= index < MEMCAP`, on the signed value. -/
def validIndex (v : Word) : Bool := decide (0 ≤ v.toInt) && decide (v.toInt < Config.memCap)

/-- A valid register index (R13, R56): `0 <= index < 8`, on the signed value. -/
def validReg (v : Word) : Bool := decide (0 ≤ v.toInt) && decide (v.toInt < Config.numRegs)

end Machine
end Sys2Proof
end

