-- ==== Sys2Proof/Syntax.lean ====
section
/-! DEFINITION. The instructions, one constructor per row of spec/opcode_table.json. -/
namespace Sys2Proof

/-- An instruction with its operand cells as they stand in memory, in fetch order (R52, R53, R55). An operand is any word:
"An operand cell is never illegal as an encoding; it can only fail its range check" (R63), and that check is part of the
instruction's execution (R71, R72, R75). -/
inductive Instr where
  /-- `reg ← memory[addr]` (R86) -/
  | load (reg addr : Word)
  /-- `memory[addr] ← reg` (R87) -/
  | store (reg addr : Word)
  /-- `regDst ← regSrc` (R88) -/
  | mov (regDst regSrc : Word)
  /-- `stack.push(reg)` (R89) -/
  | push (reg : Word)
  /-- `reg ← stack.pop()`, no-op on an empty stack (R90) -/
  | pop (reg : Word)
  /-- `reg1 ← reg1 + reg2` (R95) -/
  | add (reg1 reg2 : Word)
  /-- `reg1 ← reg1 - reg2` (R96) -/
  | sub (reg1 reg2 : Word)
  /-- `reg1 ← reg1 × reg2` (R97) -/
  | mul (reg1 reg2 : Word)
  /-- `reg1 ← reg1 / reg2`, no-op on a zero divisor (R98) -/
  | div (reg1 reg2 : Word)
  /-- `reg ← reg + 1` (R99) -/
  | inc (reg : Word)
  /-- `reg ← reg - 1` (R100) -/
  | dec (reg : Word)
  /-- jump (R103) -/
  | jmp (addr : Word)
  /-- jump if register 0 is zero (R104) -/
  | jz (addr : Word)
  /-- jump if register 0 is not zero (R105) -/
  | jnz (addr : Word)
  /-- push the return address and jump (R106) -/
  | call (addr : Word)
  /-- pop the instruction pointer, no-op on an empty stack (R107) -/
  | ret
  /-- register 0 ← 1 if equal, else 0 (R109) -/
  | cmp (reg1 reg2 : Word)
  /-- bitwise conjunction (R111) -/
  | and (reg1 reg2 : Word)
  /-- bitwise disjunction (R112) -/
  | or (reg1 reg2 : Word)
  /-- bitwise exclusive or (R113) -/
  | xor (reg1 reg2 : Word)
  /-- bitwise complement (R114) -/
  | not (reg : Word)
  /-- interrupt notification, an output event (R117) -/
  | int (code : Word)
  /-- halt (R118) -/
  | hlt
  /-- no effect (R119) -/
  | nop
  /-- IN: `reg ← value read` on a port (R120) -/
  | inp (reg port : Word)
  /-- OUT: emit a register's value on a port (R121) -/
  | out (port reg : Word)
  deriving DecidableEq, Repr

end Sys2Proof
end

