-- ==== Sys2Proof/WellFormed.lean ====
section
/-! DEFINITION. Which instructions have every operand inside its range (R56): those whose own checks raise no fault. -/
namespace Sys2Proof

open Machine (validReg validIndex)

/-- Every `reg` operand is a register index and every `addr` operand a memory index (R56). -/
def WellFormed : Instr → Bool
  | .load reg addr => validReg reg && validIndex addr
  | .store reg addr => validReg reg && validIndex addr
  | .mov regDst regSrc => validReg regDst && validReg regSrc
  | .push reg => validReg reg
  | .pop reg => validReg reg
  | .add reg1 reg2 => validReg reg1 && validReg reg2
  | .sub reg1 reg2 => validReg reg1 && validReg reg2
  | .mul reg1 reg2 => validReg reg1 && validReg reg2
  | .div reg1 reg2 => validReg reg1 && validReg reg2
  | .inc reg => validReg reg
  | .dec reg => validReg reg
  | .jmp addr => validIndex addr
  | .jz addr => validIndex addr
  | .jnz addr => validIndex addr
  | .call addr => validIndex addr
  | .ret => true
  | .cmp reg1 reg2 => validReg reg1 && validReg reg2
  | .and reg1 reg2 => validReg reg1 && validReg reg2
  | .or reg1 reg2 => validReg reg1 && validReg reg2
  | .xor reg1 reg2 => validReg reg1 && validReg reg2
  | .not reg => validReg reg
  | .int _ => true
  | .hlt => true
  | .nop => true
  | .inp reg _ => validReg reg
  | .out _ reg => validReg reg

end Sys2Proof
end

