-- ==== Sys2Proof/Decode.lean ====
section
/-! DEFINITION. The decoder and, after it, the encoder, both from the opcode map R59 and the formats R53. -/
namespace Sys2Proof

/-- The 26 mnemonics in table order (R59). -/
def Opcode.all : List Opcode :=
  [.load, .store, .mov, .push, .pop, .add, .sub, .mul, .div, .inc, .dec, .jmp, .jz, .jnz, .call, .ret] ++
  [.cmp, .and, .or, .xor, .not, .int, .hlt, .nop, .inp, .out]

/-- The operand cells after each opcode, in fetch order: the eight formats of R53. -/
def Opcode.operandKinds : Opcode → List OperandKind
  | .load | .store => [.reg, .addr]
  | .mov | .add | .sub | .mul | .div | .cmp | .and | .or | .xor => [.reg, .reg]
  | .push | .pop | .inc | .dec | .not => [.reg]
  | .jmp | .jz | .jnz | .call => [.addr]
  | .ret | .hlt | .nop => []
  | .int => [.code]
  | .inp => [.reg, .port]
  | .out => [.port, .reg]

/-- Why a list of cells is no instruction. -/
inductive DecodeError where
  /-- there is no opcode cell -/
  | noCell
  /-- the opcode cell's value is `OPC(m)` for no mnemonic `m` (R61) -/
  | invalidOpcode (v : Word)
  /-- the list ends before the operand cells of `m` do -/
  | missingOperand (m : Opcode)
  deriving DecidableEq, Repr

/-- The mnemonic whose `OPC` value is the whole opcode cell (R59, R61). -/
def opcodeOf (v : Word) : Option Opcode := Opcode.all.find? fun m => Config.opc m == v

/-- An instruction of one operand cell at the head of `cells` (formats R, A and C of R53). -/
def oneOperand (f : Word → Instr) : List Word → Option (Instr × List Word)
  | [] => none
  | a :: rest => some (f a, rest)

/-- An instruction of two operand cells, in fetch order, at the head of `cells` (formats RR, RA, RP and PR of R53). -/
def twoOperands (f : Word → Word → Instr) : List Word → Option (Instr × List Word)
  | [] => none
  | [_] => none
  | a :: b :: rest => some (f a b, rest)

/-- An opcode with the operand cells that follow it (R53, R55); the rest of the cells is handed back. -/
def withOperands (m : Opcode) (cells : List Word) : Option (Instr × List Word) :=
  match m with
  | .load => twoOperands .load cells
  | .store => twoOperands .store cells
  | .mov => twoOperands .mov cells
  | .push => oneOperand .push cells
  | .pop => oneOperand .pop cells
  | .add => twoOperands .add cells
  | .sub => twoOperands .sub cells
  | .mul => twoOperands .mul cells
  | .div => twoOperands .div cells
  | .inc => oneOperand .inc cells
  | .dec => oneOperand .dec cells
  | .jmp => oneOperand .jmp cells
  | .jz => oneOperand .jz cells
  | .jnz => oneOperand .jnz cells
  | .call => oneOperand .call cells
  | .ret => some (.ret, cells)
  | .cmp => twoOperands .cmp cells
  | .and => twoOperands .and cells
  | .or => twoOperands .or cells
  | .xor => twoOperands .xor cells
  | .not => oneOperand .not cells
  | .int => oneOperand .int cells
  | .hlt => some (.hlt, cells)
  | .nop => some (.nop, cells)
  | .inp => twoOperands .inp cells
  | .out => twoOperands .out cells

/-- The instruction at the head of a list of cells, with the cells after it (R52, R54, R64). Total; it refuses by name. -/
def decode : List Word → Except DecodeError (Instr × List Word)
  | [] => .error .noCell
  | op :: cells =>
    match opcodeOf op with
    | none => .error (.invalidOpcode op)
    | some m =>
      match withOperands m cells with
      | none => .error (.missingOperand m)
      | some r => .ok r

/-- The cells of an instruction numbered as spec/opcode_table.json numbers bits: bit 0 is the least significant bit of the
opcode cell, the next cell starts at bit 32; the bits above `nbits` are 0. A cell is one integer (R41), so no byte order enters. -/
def tableCells (nbits w : Nat) : List Word :=
  let v := w % 2 ^ nbits
  [BitVec.ofNat 32 v, BitVec.ofNat 32 (v / 2 ^ 32), BitVec.ofNat 32 (v / 2 ^ 64)]

/-- The instruction the decoder reads from the bits `w` of an opcode-table row. -/
def decodeTableWord (nbits w : Nat) : Option Instr :=
  match decode (tableCells nbits w) with
  | .ok (i, _) => some i
  | .error _ => none

/-- The mnemonic of an instruction (R59). -/
def Instr.opcode : Instr → Opcode
  | .load _ _ => .load | .store _ _ => .store | .mov _ _ => .mov
  | .push _ => .push | .pop _ => .pop
  | .add _ _ => .add | .sub _ _ => .sub | .mul _ _ => .mul | .div _ _ => .div
  | .inc _ => .inc | .dec _ => .dec
  | .jmp _ => .jmp | .jz _ => .jz | .jnz _ => .jnz | .call _ => .call | .ret => .ret
  | .cmp _ _ => .cmp | .and _ _ => .and | .or _ _ => .or | .xor _ _ => .xor | .not _ => .not
  | .int _ => .int | .hlt => .hlt | .nop => .nop | .inp _ _ => .inp | .out _ _ => .out

/-- The operand cells of an instruction in fetch order (R55): IN has the register first, OUT the port first. -/
def Instr.operands : Instr → List Word
  | .load reg addr => [reg, addr] | .store reg addr => [reg, addr] | .mov regDst regSrc => [regDst, regSrc]
  | .push reg => [reg] | .pop reg => [reg]
  | .add reg1 reg2 => [reg1, reg2] | .sub reg1 reg2 => [reg1, reg2]
  | .mul reg1 reg2 => [reg1, reg2] | .div reg1 reg2 => [reg1, reg2]
  | .inc reg => [reg] | .dec reg => [reg]
  | .jmp addr => [addr] | .jz addr => [addr] | .jnz addr => [addr] | .call addr => [addr] | .ret => []
  | .cmp reg1 reg2 => [reg1, reg2] | .and reg1 reg2 => [reg1, reg2]
  | .or reg1 reg2 => [reg1, reg2] | .xor reg1 reg2 => [reg1, reg2] | .not reg => [reg]
  | .int code => [code] | .hlt => [] | .nop => [] | .inp reg port => [reg, port] | .out port reg => [port, reg]

/-- The cells of an instruction: its opcode number, then its operands (R52, R67). -/
def encode (i : Instr) : List Word := Config.opc i.opcode :: i.operands

end Sys2Proof
end

