-- ==== Sys2Proof/Machine/State.lean ====
section
/-! DEFINITION. The state of the machine (R11), what a step can stop with, and the state after reset (R33). -/
namespace Sys2Proof.Machine

/-- The three kinds of fault the core raises (R122). -/
inductive FaultKind where
  | outOfBounds
  | invalidRegister
  | invalidOpcode
  deriving DecidableEq, Repr

/-- The record a fault leaves in the latch (R27). Its `code` is a function of its kind (`FaultRecord.code`, R126). -/
structure FaultRecord where
  kind : FaultKind
  /-- the opcode cell, or `none` when the opcode fetch itself failed -/
  opcode : Option Word
  /-- the instruction pointer when the fault was detected -/
  pc : Word
  /-- the operand cells decoded so far, a failing one included -/
  operands : List Word
  /-- the offending integer -/
  value : Word
  deriving DecidableEq, Repr

/-- One entry of the I/O history (R31). -/
inductive IoEvent where
  | output (port value : Word)
  | interrupt (code : Word)
  | input (port value : Word)
  deriving DecidableEq, Repr

/-- The external input provider (R5 item 2, R116), the model's own field (log entry 5): what it will still answer. -/
inductive Provider where
  /-- it answers every request, each time with a free value; `drawn` counts the answers given -/
  | free (drawn : Nat)
  /-- it answers with these values in order, and after the last it never answers again (R84) -/
  | script (answers : List Word)
  deriving DecidableEq, Repr

/-- Memory as (index, cell) pairs: indices strictly rising, no cell that holds what an unlisted index reads as
(`Memory.wf`). A cell is one integer and has no bytes (R35, R41; log entry 8). -/
abbrev Memory := List (Nat × Word)

/-- The whole state (R11), and the input provider at the core's boundary. -/
structure State where
  /-- the memory cells `0 .. MEMCAP-1` (R34) -/
  mem : Memory
  /-- the registers `x[0] .. x[7]` (R13) -/
  x : Vector Word 8
  /-- the LIFO stack, top last (R21) -/
  stack : List Word
  /-- the instruction pointer: index of the next cell to fetch (R17) -/
  pc : Word
  /-- "execution halts when false" (R26) -/
  running : Bool
  /-- the fault latch (R27) -/
  fault : Option FaultRecord
  /-- the history of completed I/O transactions (R31) -/
  io : List IoEvent
  /-- what the external input provider will still answer (R116, R84) -/
  provider : Provider
  deriving DecidableEq, Repr

/-- Why the core has no step. Both are the spec's `stuck` (U17, U22); a fault of R122 is no `Fault` but a next state, since
the spec describes its entry (R131). -/
inductive Fault where
  /-- Raised by `cycle` alone, when `running` is false: "When `running` is false the core has no step" (R83). Safe. -/
  | notRunning
  /-- Raised by `execIn` alone, when the provider has no further answer: the step never completes (R84). Safe. -/
  | inputNotSupplied
  deriving DecidableEq, Repr

/-- What the model gives no meaning. -/
inductive Refusal where
  /-- Raised by `exec` for an instruction without a meaning; none is left. Safe. -/
  | notModelled (mnemonic : String)
  /-- Raised by PUSH and CALL on a full stack under a finite `STACK_CAP` (R24: "refuse it"); never under the default. Safe. -/
  | stackCapacity
  /-- Raised by `hostWrite` for an index outside memory: "the model refuses one" (R51). Safe. -/
  | hostIndex
  /-- Raised by `hostWrite` when the core has stopped: the host's views are then read-only (R51). Safe. -/
  | hostReadOnly
  deriving DecidableEq, Repr

/-- The outcome of one step. -/
abbrev Out := Host.Outcome State Fault Refusal

/-- The state after reset, row by row of R33. The provider starts as the default of R6, a free sequence (log entry 5). -/
def State.reset : State where
  mem := []
  x := Vector.replicate 8 0
  stack := []
  pc := 0
  running := true
  fault := none
  io := []
  provider := .free 0

end Sys2Proof.Machine
end

