-- ==== Sys2Proof/Machine/Ops.lean ====
section
/-! DEFINITION. The named operations over memory, registers, stack, instruction pointer, I/O and the fault latch. -/
namespace Sys2Proof.Machine

/-- What an unlisted cell reads as: the reset value of R33. -/
def Memory.unlisted : Word := 0

/-- `MemRead` on the list (R39). -/
def Memory.read : Memory → Nat → Word
  | [], _ => Memory.unlisted
  | (b, w) :: m, a => if a = b then w else Memory.read m a

/-- A cell in front of a list, left out where it holds what an unlisted cell reads as. -/
def Memory.put (a : Nat) (v : Word) (m : Memory) : Memory :=
  if v = Memory.unlisted then m else (a, v) :: m

/-- `MemWrite` on the list (R40): the whole cell is replaced, the canonical form is kept. -/
def Memory.write : Memory → Nat → Word → Memory
  | [], a, v => Memory.put a v []
  | (b, w) :: m, a, v =>
    if a < b then Memory.put a v ((b, w) :: m)
    else if a = b then Memory.put a v m
    else (b, w) :: Memory.write m a v

/-- Canonical from index `lo` on: indices strictly rising from `lo`, all inside memory (R34), no cell at the unlisted value. -/
def Memory.wfFrom : Nat → Memory → Bool
  | _, [] => true
  | lo, (a, v) :: m =>
    decide (lo ≤ a) && decide (a < Config.memCap) && decide (v ≠ Memory.unlisted) && Memory.wfFrom (a + 1) m

/-- The canonical form of memory. -/
def Memory.wf (m : Memory) : Bool := Memory.wfFrom 0 m

/-- A register number. -/
abbrev RegNo := Fin 8

/-- The register an operand cell names; used only after its range check (R71). -/
def regNo (v : Word) : RegNo := Fin.ofNat 8 v.toNat

/-- The cell an operand cell or the instruction pointer names; used only after its range check (R38). -/
def cellNo (v : Word) : Nat := v.toNat

/-- `x[r]` (R10). -/
def State.getReg (s : State) (r : RegNo) : Word := s.x[r]

/-- `x[r] <- v` (R10); no register is hard-wired (R15). -/
def State.setReg (s : State) (r : RegNo) (v : Word) : State := { s with x := s.x.set r v }

/-- `pc <- v` (R10, R101). -/
def State.setPc (s : State) (v : Word) : State := { s with pc := v }

/-- `pc` moved on by `n` cells (R69). -/
def State.advance (s : State) (n : Nat) : State := s.setPc (s.pc + BitVec.ofNat 32 n)

/-- `MemRead(a, 1)` for a valid index (R39). -/
def State.memRead (s : State) (a : Nat) : Word := s.mem.read a

/-- `MemWrite(a, 1, v)` for a valid index (R40). -/
def State.memWrite (s : State) (a : Nat) (v : Word) : State := { s with mem := s.mem.write a v }

/-- The stack replaced. -/
def State.setStack (s : State) (st : List Word) : State := { s with stack := st }

/-- `running <- b` (R26). -/
def State.setRunning (s : State) (b : Bool) : State := { s with running := b }

/-- The fault latch written (R27). -/
def State.setFault (s : State) (f : Option FaultRecord) : State := { s with fault := f }

/-- `io <- io ++ [e]` (R31). -/
def State.emit (s : State) (e : IoEvent) : State := { s with io := s.io ++ [e] }

/-- The provider replaced. -/
def State.setProvider (s : State) (p : Provider) : State := { s with provider := p }

/-- `push(v)` under a bound `cap` on the depth (R10, R24): `none` is no bound, and a full stack gives the push no meaning. -/
def pushWithin (cap : Option Nat) (v : Word) (s : State) (k : State → Out) : Out :=
  match cap with
  | none => k (s.setStack (s.stack ++ [v]))
  | some c => if s.stack.length < c then k (s.setStack (s.stack ++ [v])) else .refused .stackCapacity

/-- `pop()` where the stack is not empty (R10): the top and the state without it. On an empty stack, nothing (R23). -/
def pop (s : State) : Option (Word × State) :=
  match s.stack.getLast? with
  | none => none
  | some v => some (v, s.setStack s.stack.dropLast)

/-- `Input(port)` (R5, R116): the next answer and the provider after it; `none` where it never answers (R84). -/
def Provider.answer (p : Provider) (port : Word) : Option (Word × Provider) :=
  match p with
  | .free n => some (Config.inputValue n port, .free (n + 1))
  | .script [] => none
  | .script (v :: vs) => some (v, .script vs)

/-- The number of a fault kind (R126; D11). -/
def FaultKind.code : FaultKind → Nat
  | .outOfBounds => 1
  | .invalidRegister => 2
  | .invalidOpcode => 3

/-- The `code` of a fault record (R27), computed from its kind. -/
def FaultRecord.code (r : FaultRecord) : Nat := r.kind.code

/-- The transient decode context of one step (R29): the opcode cell and the operand cells fetched so far. -/
structure DecodeContext where
  opcode : Option Word
  operands : List Word
  deriving DecidableEq, Repr

/-- The context at the start of a step (R78). -/
def DecodeContext.fresh : DecodeContext := ⟨none, []⟩

/-- The context once the opcode cell `op` is fetched (R78). -/
def DecodeContext.ofOpcode (op : Word) : DecodeContext := ⟨some op, []⟩

/-- The context with one more operand cell (R71, R72, R73). -/
def DecodeContext.add (c : DecodeContext) (v : Word) : DecodeContext := { c with operands := c.operands ++ [v] }

/-- The record fault entry writes (R131). -/
def faultRecord (k : FaultKind) (v : Word) (c : DecodeContext) (s : State) : FaultRecord :=
  ⟨k, c.opcode, s.pc, c.operands, v⟩

/-- Fault entry, `raise K(value = v)` (R131): the latch is written and `running` cleared; nothing else changes. There is no
return from a fault (R134). -/
def raise (k : FaultKind) (v : Word) (c : DecodeContext) (s : State) : State :=
  (s.setFault (some (faultRecord k v c s))).setRunning false

/-- The check and the advance every fetch makes (R68, R70): OutOfBounds with `pc` left unchanged when `pc` is outside memory. -/
def consume (c : DecodeContext) (s : State) (k : State → Out) : Out :=
  if validIndex s.pc then k (s.advance 1) else .next (raise .outOfBounds s.pc c s)

/-- `Fetch()` (R68): the cell at `pc`, with `pc` advanced over it. -/
def fetch (c : DecodeContext) (s : State) (k : Word → State → Out) : Out :=
  consume c s (k (s.memRead (cellNo s.pc)))

/-- What `raise` does with a cell whose value is no opcode (R62, R77): nothing when unknown opcodes are lenient. -/
def unknownOpcode (lenient : Bool) (op : Word) (s : State) : Out :=
  if lenient then .next s else .next (raise .invalidOpcode op (.ofOpcode op) s)

end Sys2Proof.Machine
end

