-- ==== Sys2Proof/Machine/Operands.lean ====
section
/-! DEFINITION. Operand fetch and range checks, the decode half of the Execute Unit (R71 to R75), for all eight formats. -/
namespace Sys2Proof.Machine

/-- The range check of one operand (R56): the fault it fails with, InvalidRegister for a register (R71), OutOfBounds for an
address (R72); a port and a code have no check (R73). -/
def operandCheck : OperandKind → Word → Option FaultKind
  | .reg, v => if validReg v then none else some .invalidRegister
  | .addr, v => if validIndex v then none else some .outOfBounds
  | .port, _ => none
  | .code, _ => none

/-- `FetchReg()`, `FetchAddr()` and `FetchImm()` (R71, R72, R73) on the operand cell `v` at `pc`: the fetch, the context
with the cell appended, then the range check. -/
def fetchOperand (kind : OperandKind) (v : Word) (c : DecodeContext) (s : State)
    (k : DecodeContext → State → Out) : Out :=
  consume c s fun s =>
    match operandCheck kind v with
    | none => k (c.add v) s
    | some f => .next (raise f v (c.add v) s)

/-- The operands of an instruction, each checked as soon as it is fetched and before the next is (R74; D7), all of them before
any effect (R75; D8). `k` is the instruction's own transition; it starts with `pc` past the last operand (R17). -/
def fetchOperands : List (OperandKind × Word) → DecodeContext → State → (State → Out) → Out
  | [], _, s, k => k s
  | (kind, v) :: rest, c, s, k => fetchOperand kind v c s fun c s => fetchOperands rest c s k

/-- The operand cells of the instruction `m`, after its opcode cell has been fetched (R76). -/
def operandsOf (m : Opcode) (ops : List (OperandKind × Word)) (s : State) (k : State → Out) : Out :=
  fetchOperands ops (.ofOpcode (Config.opc m)) s k

end Sys2Proof.Machine
end

