-- ==== Sys2Proof/Machine/Arithmetic.lean ====
section
/-! DEFINITION. ADD, SUB, MUL, DIV, INC and DEC (43_arithmetic.md). -/
namespace Sys2Proof.Machine

/-- The transition `reg1 ← reg1 OP reg2`: both values are read from one state before the destination is written (R93). -/
def binaryInto (f : Word → Word → Word) (reg1 reg2 : Word) (s : State) : Out :=
  .next (s.setReg (regNo reg1) (f (s.getReg (regNo reg1)) (s.getReg (regNo reg2))))

/-- The transition `reg ← OP reg`. -/
def unaryInto (f : Word → Word) (reg : Word) (s : State) : Out :=
  .next (s.setReg (regNo reg) (f (s.getReg (regNo reg))))

/-- ADD (R95). -/
def execAdd (reg1 reg2 : Word) (s : State) : Out :=
  operandsOf .add [(.reg, reg1), (.reg, reg2)] s (binaryInto aluAdd reg1 reg2)

/-- SUB (R96). -/
def execSub (reg1 reg2 : Word) (s : State) : Out :=
  operandsOf .sub [(.reg, reg1), (.reg, reg2)] s (binaryInto aluSub reg1 reg2)

/-- MUL (R97). -/
def execMul (reg1 reg2 : Word) (s : State) : Out :=
  operandsOf .mul [(.reg, reg1), (.reg, reg2)] s (binaryInto aluMul reg1 reg2)

/-- DIV (R98): on a zero divisor nothing but the advance of `pc`. -/
def execDiv (reg1 reg2 : Word) (s : State) : Out :=
  operandsOf .div [(.reg, reg1), (.reg, reg2)] s fun s =>
    if s.getReg (regNo reg2) = 0 then .next s else binaryInto aluDiv reg1 reg2 s

/-- INC (R99). -/
def execInc (reg : Word) (s : State) : Out :=
  operandsOf .inc [(.reg, reg)] s (unaryInto aluInc reg)

/-- DEC (R100). -/
def execDec (reg : Word) (s : State) : Out :=
  operandsOf .dec [(.reg, reg)] s (unaryInto aluDec reg)

end Sys2Proof.Machine
end

