-- ==== Sys2Proof/Machine/Flags.lean ====
section
/-! DEFINITION. The one condition value of the machine, the content of register 0 (R16). There is no flags register. -/
namespace Sys2Proof.Machine

/-- What CMP leaves in register 0: 1 when the two values are equal, else 0 (R16, R109). -/
def equalFlag (a b : Word) : Word := if a = b then 1 else 0

/-- Register 0 is zero: the condition of JZ, and its negation that of JNZ (R16, R104, R105). -/
def zeroCondition (s : State) : Bool := s.getReg 0 == 0

end Sys2Proof.Machine
end

