-- ==== Sys2Proof/Machine/CompareLogic.lean ====
section
/-! DEFINITION. CMP, AND, OR, XOR and NOT (45_compare_logic.md). -/
namespace Sys2Proof.Machine

/-- CMP (R109): both values are read before register 0 is written. -/
def execCmp (reg1 reg2 : Word) (s : State) : Out :=
  operandsOf .cmp [(.reg, reg1), (.reg, reg2)] s fun s =>
    .next (s.setReg 0 (equalFlag (s.getReg (regNo reg1)) (s.getReg (regNo reg2))))

/-- AND (R111). -/
def execAnd (reg1 reg2 : Word) (s : State) : Out :=
  operandsOf .and [(.reg, reg1), (.reg, reg2)] s (binaryInto aluAnd reg1 reg2)

/-- OR (R112). -/
def execOr (reg1 reg2 : Word) (s : State) : Out :=
  operandsOf .or [(.reg, reg1), (.reg, reg2)] s (binaryInto aluOr reg1 reg2)

/-- XOR (R113). -/
def execXor (reg1 reg2 : Word) (s : State) : Out :=
  operandsOf .xor [(.reg, reg1), (.reg, reg2)] s (binaryInto aluXor reg1 reg2)

/-- NOT (R114). -/
def execNot (reg : Word) (s : State) : Out :=
  operandsOf .not [(.reg, reg)] s (unaryInto aluNot reg)

end Sys2Proof.Machine
end

