-- ==== Sys2Proof/Machine/ControlTransfer.lean ====
section
/-! DEFINITION. JMP, JZ, JNZ, CALL and RET (44_control_transfer.md). -/
namespace Sys2Proof.Machine

/-- JMP (R103). -/
def execJmp (addr : Word) (s : State) : Out :=
  operandsOf .jmp [(.addr, addr)] s fun s => .next (s.setPc addr)

/-- JZ (R104): the target is checked whether or not the branch is taken (R75). -/
def execJz (addr : Word) (s : State) : Out :=
  operandsOf .jz [(.addr, addr)] s fun s =>
    .next (if zeroCondition s then s.setPc addr else s)

/-- JNZ (R105). -/
def execJnz (addr : Word) (s : State) : Out :=
  operandsOf .jnz [(.addr, addr)] s fun s =>
    .next (if zeroCondition s then s else s.setPc addr)

/-- CALL (R106): the return address is `pc` as it stands after the operand fetch. -/
def execCall (addr : Word) (s : State) : Out :=
  operandsOf .call [(.addr, addr)] s fun s =>
    pushWithin Config.stackCap s.pc s fun s => .next (s.setPc addr)

/-- RET (R107): the popped value is not checked (D17); on an empty stack it falls through. -/
def execRet (s : State) : Out :=
  operandsOf .ret [] s fun s =>
    match pop s with
    | some (v, s) => .next (s.setPc v)
    | none => .next s

end Sys2Proof.Machine
end

