-- ==== Sys2Proof/Machine/DataMovement.lean ====
section
/-! DEFINITION. LOAD, STORE and MOV (41_data_movement.md). -/
namespace Sys2Proof.Machine

/-- LOAD (R86). -/
def execLoad (reg addr : Word) (s : State) : Out :=
  operandsOf .load [(.reg, reg), (.addr, addr)] s fun s =>
    .next (s.setReg (regNo reg) (s.memRead (cellNo addr)))

/-- STORE (R87). -/
def execStore (reg addr : Word) (s : State) : Out :=
  operandsOf .store [(.reg, reg), (.addr, addr)] s fun s =>
    .next (s.memWrite (cellNo addr) (s.getReg (regNo reg)))

/-- MOV (R88). -/
def execMov (regDst regSrc : Word) (s : State) : Out :=
  operandsOf .mov [(.reg, regDst), (.reg, regSrc)] s fun s =>
    .next (s.setReg (regNo regDst) (s.getReg (regNo regSrc)))

end Sys2Proof.Machine
end

