-- ==== Sys2Proof/Machine/StackOps.lean ====
section
/-! DEFINITION. PUSH and POP (42_stack.md). -/
namespace Sys2Proof.Machine

/-- PUSH (R89). -/
def execPush (reg : Word) (s : State) : Out :=
  operandsOf .push [(.reg, reg)] s fun s =>
    pushWithin Config.stackCap (s.getReg (regNo reg)) s fun s => .next s

/-- POP (R90): on an empty stack nothing but the advance of `pc`. -/
def execPop (reg : Word) (s : State) : Out :=
  operandsOf .pop [(.reg, reg)] s fun s =>
    match pop s with
    | some (v, s) => .next (s.setReg (regNo reg) v)
    | none => .next s

end Sys2Proof.Machine
end

