-- ==== Sys2Proof/Machine/SystemIo.lean ====
section
/-! DEFINITION. INT, HLT, NOP, IN and OUT (46_system_io.md). -/
namespace Sys2Proof.Machine

/-- INT (R117): one Interrupt event and nothing else. -/
def execInt (code : Word) (s : State) : Out :=
  operandsOf .int [(.code, code)] s fun s => .next (s.emit (.interrupt code))

/-- HLT (R118). -/
def execHlt (s : State) : Out :=
  operandsOf .hlt [] s fun s => .next (s.setRunning false)

/-- NOP (R119). -/
def execNop (s : State) : Out :=
  operandsOf .nop [] s fun s => .next s

/-- IN (R120): the request is made after both operands are fetched; without an answer the step never completes (R84). -/
def execIn (reg port : Word) (s : State) : Out :=
  operandsOf .inp [(.reg, reg), (.port, port)] s fun s =>
    match s.provider.answer port with
    | some (v, p) => .next (((s.setProvider p).setReg (regNo reg) v).emit (.input port v))
    | none => .fault .inputNotSupplied

/-- OUT (R121). -/
def execOut (port reg : Word) (s : State) : Out :=
  operandsOf .out [(.port, port), (.reg, reg)] s fun s =>
    .next (s.emit (.output port (s.getReg (regNo reg))))

end Sys2Proof.Machine
end

