-- ==== Sys2Proof/Machine/Cycle.lean ====
section
/-! DEFINITION. One run-loop iteration (R78): the opcode fetch, the decoding of the cells at `pc`, and the instruction. -/
namespace Sys2Proof.Machine

/-- The three cells from `pc` on, the most an instruction has (R52). Reading ahead is unobservable: a read has no side effect
(R43), and an operand is used only after the fetch of its cell has been checked (`fetchOperand`). -/
def cellsAt (s : State) : List Word :=
  [s.memRead (cellNo s.pc), s.memRead (cellNo s.pc + 1), s.memRead (cellNo s.pc + 2)]

/-- The instruction whose opcode cell `pc` names (R64); the cells after it stay unread. -/
def decodedAt (s : State) : Except DecodeError Instr :=
  match decode (cellsAt s) with
  | .ok (i, _) => .ok i
  | .error e => .error e

/-- `Step()` (R78), with `LENIENT_UNKNOWN_OPCODE` as an argument (R62, R77). With `running` false there is no step (R83). -/
def cycle (lenient : Bool) (s : State) : Out :=
  if s.running then
    fetch .fresh s fun op s1 =>
      match decodedAt s with
      | .ok i => exec i s1
      | .error _ => unknownOpcode lenient op s1
  else .fault .notRunning

/-- Cells written from index `a` on; an index outside memory takes none. -/
def placeCells : Nat → List Word → State → State
  | _, [], s => s
  | a, v :: vs, s => placeCells (a + 1) vs (if a < Config.memCap then s.memWrite a v else s)

end Sys2Proof.Machine
end

