-- ==== Sys2Proof/Machine/Step.lean ====
section
/-! DEFINITION. The step of the machine at the default configuration, and the placing of an instruction where it fetches. -/
namespace Sys2Proof.Machine

/-- One step (R78) under the default of `LENIENT_UNKNOWN_OPCODE`. -/
def step (s : State) : Host.Outcome State Fault Refusal := cycle Config.lenientUnknownOpcode s

/-- `s` with the instruction of an opcode-table row in the cells from `pc` on, where `step` fetches; nothing else changes. -/
def State.withFetchWord (s : State) (nbits w : Nat) : State := placeCells (cellNo s.pc) (tableCells nbits w) s

end Sys2Proof.Machine
end

