-- ==== Sys2Proof/Machine/Control.lean ====
section
/-! DEFINITION. The host's side of the interfaces of R5: run and step limit, reset, loader and host writes, the event sink, and
the views of a stopped core. -/
namespace Sys2Proof.Machine

/-- `Run()` cut off after a `STEP_LIMIT` of iterations (R80, R82; log entry 7): the flag is tested before each one, and a stopped
core is left as it is. -/
def runFor : Nat → State → Out
  | 0, s => .next s
  | n + 1, s =>
    if s.running then
      match step s with
      | .next s => runFor n s
      | .fault r => .fault r
      | .refused r => .refused r
    else .next s

/-- The reset action of the host (R33, R143): every piece of the core's state at its reset value, from any state. The provider is
outside the core and keeps what it will still answer. -/
def applyReset (s : State) : State := State.reset.setProvider s.provider

/-- A host or loader write of one cell (R51): into memory while the core has not stopped; refused at an index outside memory
and once the core has stopped. It is a move between two steps, never inside one (D19, log entry 9). -/
def hostWrite (index : Int) (v : Word) (s : State) : Out :=
  if s.running then
    if 0 ≤ index ∧ index < Config.memCap then .next (s.memWrite index.toNat v) else .refused .hostIndex
  else .refused .hostReadOnly

/-- The loader (R145): cells written at consecutive indices from `base` on. -/
def loadProgram : Int → List Word → State → Out
  | _, [], s => .next s
  | base, v :: vs, s =>
    match hostWrite base v s with
    | .next s => loadProgram (base + 1) vs s
    | .fault r => .fault r
    | .refused r => .refused r

/-- The two kinds of event the sink receives (R115). -/
inductive EventKind where
  | output
  | interrupt
  deriving DecidableEq, Repr

/-- The event record handed to the sink (R5 item 3, R115). -/
structure SinkEvent where
  kind : EventKind
  port : Option Word
  code : Option Word
  value : Option Word
  deriving DecidableEq, Repr

/-- The event record of a history entry (R115); an Input entry is not sent to the sink (R31). -/
def IoEvent.toSink : IoEvent → Option SinkEvent
  | .output port value => some ⟨.output, some port, none, some value⟩
  | .interrupt code => some ⟨.interrupt, none, some code, none⟩
  | .input _ _ => none

/-- Everything the sink has received, in emission order (R31, R115). -/
def sinkEvents (s : State) : List SinkEvent := s.io.filterMap IoEvent.toSink

/-- The status pair, readable at any time (R5 item 4, R26). -/
def status (s : State) : Bool × Option FaultRecord := (s.running, s.fault)

/-- What the host may read of a stopped core (R5 item 4, R155). -/
structure View where
  registers : Vector Word 8
  memory : Memory
  stack : List Word
  pc : Word
  deriving DecidableEq, Repr

/-- The read-only views, open once `running` is false (R51 item 2, R155). -/
def inspect (s : State) : Option View := if s.running then none else some ⟨s.x, s.mem, s.stack, s.pc⟩

end Sys2Proof.Machine
end

