-- ==== Sys2Proof/Safety.lean ====
section
/-! DEFINITION. The terms claims are stated in: what the checks of an instruction find, how a run ends, what an instruction may
change, and the invariant of the machine. -/
namespace Sys2Proof.Machine

/-- The next `n` cells from `pc` on are inside memory. -/
abbrev CanFetch (n : Nat) (s : State) : Prop := 0 ≤ s.pc.toInt ∧ s.pc.toInt + n ≤ Config.memCap

/-- The record of the first check that fails for the operand cells `ops` of an opcode `op`, in the order of R130 and with the
values of the table of R132; `none` when all pass. `pc` names the next operand cell, `before` those already decoded. -/
def operandFault (op : Word) : Word → List Word → List (OperandKind × Word) → Option FaultRecord
  | _, _, [] => none
  | pc, before, (kind, v) :: rest =>
    if validIndex pc = false then some ⟨.outOfBounds, some op, pc, before, pc⟩
    else if kind = .reg ∧ validReg v = false then some ⟨.invalidRegister, some op, pc + 1, before ++ [v], v⟩
    else if kind = .addr ∧ validIndex v = false then some ⟨.outOfBounds, some op, pc + 1, before ++ [v], v⟩
    else operandFault op (pc + 1) (before ++ [v]) rest

/-- The fault the operands of `i` raise at `s`, where `pc` names the first operand cell. -/
def faultOf (i : Instr) (s : State) : Option FaultRecord :=
  operandFault (Config.opc i.opcode) s.pc [] (i.opcode.operandKinds.zip i.operands)

/-- The state a fault leaves (R131, R133): `pc`, `running` and the latch differ, nothing else. -/
def State.stopped (s : State) (r : FaultRecord) : State :=
  { s with pc := r.pc, running := false, fault := some r }

/-- `v` is `wrap_W(z)` (R7): the word whose signed value is congruent to `z` modulo `2^W`. -/
def Wraps (v : Word) (z : Int) : Prop := (v.toInt - z) % 4294967296 = 0

/-- `q = tdiv(a, b)` as R94 words it: the magnitude is the quotient of the magnitudes rounded down, the sign positive when
`a` and `b` have the same sign or `a = 0`, negative otherwise. -/
def IsQuotient (a b q : Int) : Prop :=
  q.natAbs = a.natAbs / b.natAbs ∧
  ((0 ≤ a ∧ 0 < b) ∨ (a < 0 ∧ b < 0) ∨ a = 0 → 0 ≤ q) ∧
  ((0 < a ∧ b < 0) ∨ (a < 0 ∧ 0 < b) → q ≤ 0)

/-- A run is over (R155). -/
def State.over (s : State) : Prop := s.running = false

/-- A run ended well (R155). -/
def State.endedWell (s : State) : Prop := s.running = false ∧ s.fault = none

/-- A run ended badly (R155). -/
def State.endedBadly (s : State) : Prop := s.running = false ∧ s.fault.isSome = true

/-- The registers an instruction may write: the third and fourth columns of the table of R14. -/
def regsWritten : Instr → List RegNo
  | .load reg _ => [regNo reg]
  | .mov regDst _ => [regNo regDst]
  | .pop reg => [regNo reg]
  | .add reg1 _ => [regNo reg1]
  | .sub reg1 _ => [regNo reg1]
  | .mul reg1 _ => [regNo reg1]
  | .div reg1 _ => [regNo reg1]
  | .inc reg => [regNo reg]
  | .dec reg => [regNo reg]
  | .cmp _ _ => [0]
  | .and reg1 _ => [regNo reg1]
  | .or reg1 _ => [regNo reg1]
  | .xor reg1 _ => [regNo reg1]
  | .not reg => [regNo reg]
  | .inp reg _ => [regNo reg]
  | .store _ _ | .push _ | .jmp _ | .jz _ | .jnz _ | .call _ | .ret | .int _ | .hlt | .nop | .out _ _ => []

/-- The cell an instruction stores to: `addr` for STORE, none for every other (R37). -/
def storeTarget : Instr → Option Nat
  | .store _ addr => some (cellNo addr)
  | .load _ _ | .mov _ _ | .push _ | .pop _ | .add _ _ | .sub _ _ | .mul _ _ | .div _ _ | .inc _ | .dec _
  | .jmp _ | .jz _ | .jnz _ | .call _ | .ret | .cmp _ _ | .and _ _ | .or _ _ | .xor _ _ | .not _
  | .int _ | .hlt | .nop | .inp _ _ | .out _ _ => none

/-- The I/O transaction an instruction completes at `s`, if any: INT, OUT and an answered IN (R31, R117, R120, R121). -/
def ioEventOf (i : Instr) (s : State) : Option IoEvent :=
  match i with
  | .int code => some (.interrupt code)
  | .out port reg => some (.output port (s.getReg (regNo reg)))
  | .inp _ port => (s.provider.answer port).map fun a => .input port a.1
  | .load _ _ | .store _ _ | .mov _ _ | .push _ | .pop _ | .add _ _ | .sub _ _ | .mul _ _ | .div _ _ | .inc _ | .dec _
  | .jmp _ | .jz _ | .jnz _ | .call _ | .ret | .cmp _ _ | .and _ _ | .or _ _ | .xor _ _ | .not _ | .hlt | .nop => none

/-- What the sink receives from an instruction completed at `s` (R115): one Output event with port and value from OUT, one
Interrupt event with its code from INT, nothing from any other. -/
def sinkEventOf (i : Instr) (s : State) : List SinkEvent :=
  match i with
  | .out port reg => [⟨.output, some port, none, some (s.getReg (regNo reg))⟩]
  | .int code => [⟨.interrupt, none, some code, none⟩]
  | .load _ _ | .store _ _ | .mov _ _ | .push _ | .pop _ | .add _ _ | .sub _ _ | .mul _ _ | .div _ _ | .inc _ | .dec _
  | .jmp _ | .jz _ | .jnz _ | .call _ | .ret | .cmp _ _ | .and _ _ | .or _ _ | .xor _ _ | .not _
  | .hlt | .nop | .inp _ _ => []

/-- The stack after an instruction completes at `s`, where `pc` is past its operands (R14, R21, R89, R90, R106, R107). -/
def stackAfter (i : Instr) (s : State) : List Word :=
  match i with
  | .push reg => s.stack ++ [s.getReg (regNo reg)]
  | .call _ => s.stack ++ [s.pc]
  | .pop _ => s.stack.dropLast
  | .ret => s.stack.dropLast
  | .load _ _ | .store _ _ | .mov _ _ | .add _ _ | .sub _ _ | .mul _ _ | .div _ _ | .inc _ | .dec _ | .jmp _ | .jz _ | .jnz _
  | .cmp _ _ | .and _ _ | .or _ _ | .xor _ _ | .not _ | .int _ | .hlt | .nop | .inp _ _ | .out _ _ => s.stack

/-- The last column of the table of R20: `pc` when the step ends without a fault, from the state `s` after the opcode fetch
(`s.pc = p + 1`). -/
def pcAfter (i : Instr) (s : State) : Word :=
  let next := s.pc + BitVec.ofNat 32 i.operands.length
  match i with
  | .ret => s.stack.getLast?.getD next
  | .jmp addr => addr
  | .jz addr => if (s.getReg 0).toInt = 0 then addr else next
  | .jnz addr => if (s.getReg 0).toInt ≠ 0 then addr else next
  | .call addr => addr
  | .load _ _ | .store _ _ | .mov _ _ | .push _ | .pop _ | .add _ _ | .sub _ _ | .mul _ _ | .div _ _ | .inc _ | .dec _
  | .cmp _ _ | .and _ _ | .or _ _ | .xor _ _ | .not _ | .int _ | .hlt | .nop | .inp _ _ | .out _ _ => next

/-- What every fault record satisfies (R27, R123 to R125, R132). -/
def FaultRecord.consistent (r : FaultRecord) : Bool :=
  (r.opcode.isSome || r.operands.isEmpty) &&
  match r.kind with
  | .invalidOpcode => r.opcode == some r.value && r.operands.isEmpty && (opcodeOf r.value).isNone
  | .invalidRegister => r.opcode.isSome && r.operands.getLast? == some r.value && !validReg r.value
  | .outOfBounds =>
    !validIndex r.value && (r.value == r.pc || (r.opcode.isSome && r.operands.getLast? == some r.value))

/-- The invariant of the machine, each clause a rule's own: memory keeps its canonical form inside `0 .. MEMCAP-1` (R34);
a running core has an empty latch (R28); a latched record is consistent and names the `pc` the core stopped at (R27, R131);
a core that halted without a fault stopped one past an HLT cell (R155). -/
structure Inv (s : State) : Prop where
  mem : s.mem.wf = true
  latch : s.running = true → s.fault = none
  record : ∀ r, s.fault = some r → r.consistent = true ∧ r.pc = s.pc
  halted : s.running = false → s.fault = none →
    validIndex (s.pc - 1) = true ∧ s.memRead (cellNo (s.pc - 1)) = Config.opc .hlt

/-- `t` is reached from `s` by steps of the core. -/
inductive Reaches : State → State → Prop where
  | refl (s : State) : Reaches s s
  | tail {s t u : State} : Reaches s t → step t = .next u → Reaches s u

/-- The provider has an answer left: IN is then enabled (R84). -/
def Provider.hasAnswer : Provider → Bool
  | .free _ => true
  | .script answers => !answers.isEmpty

/-- The operand fetches of R71 to R74 as the pseudocode writes them, each cell read when it is fetched: the faulted state, or
the operands and the state after them. -/
def fetchEach (op : Word) : List OperandKind → List Word → State → State ⊕ (List Word × State)
  | [], got, s => .inr (got, s)
  | kind :: kinds, got, s =>
    if validIndex s.pc = false then .inl (s.stopped ⟨.outOfBounds, some op, s.pc, got, s.pc⟩)
    else
      let v := s.memRead (cellNo s.pc)
      let s := s.setPc (s.pc + 1)
      let got := got ++ [v]
      if kind = .reg ∧ validReg v = false then .inl (s.stopped ⟨.invalidRegister, some op, s.pc, got, v⟩)
      else if kind = .addr ∧ validIndex v = false then .inl (s.stopped ⟨.outOfBounds, some op, s.pc, got, v⟩)
      else fetchEach op kinds got s

end Sys2Proof.Machine
end

