-- ==== Sys2Proof/Certificates/Slice0/Obligations.lean ====
section
/-! DEFINITION. The statements for the provers. In a statement about `exec`, `s` is the state after the opcode fetch, so that
`s.pc` names the first operand cell (`p + 1` in the spec's notation). -/

open Sys2Proof Sys2Proof.Machine

/-! Encoding -/

/-- R52, R54, R55, R59, R64: for every instruction, whatever its operands, the decoder reads from its cells exactly it, and it
reads an instruction from nothing but that instruction's cells. -/
def Obligations.DecodeEncodeAgree : Prop :=
  ∀ (cells rest : List Word) (i : Instr), decode cells = .ok (i, rest) ↔ cells = encode i ++ rest

/-- R61 under the default numbering of R58 (D1, log entry 3): a value is an opcode exactly if it lies in 0 to 25, and it then
is the number of the mnemonic at that place of the table. -/
def Obligations.OpcodeNumbers : Prop :=
  (∀ v : Word, opcodeOf v = none ↔ v.toInt < 0 ∨ 26 ≤ v.toInt) ∧
  (∀ (v : Word) (m : Opcode), opcodeOf v = some m ↔ 0 ≤ v.toInt ∧ Opcode.all[v.toInt.toNat]? = some m)

/-- R67 and the examples of files 41 to 46, in the default numbering (D1, log entry 3): cells written out from the encodings
decode to the instructions they stand for. -/
def Obligations.DecodesWrittenCells : Prop :=
  decode [0, 0, 10, 0, 5, 5] = .ok (.load 0 10, [0, 5, 5]) ∧ decode [5, 5, 0] = .ok (.add 5 0, []) ∧
  decode [9, 0] = .ok (.inc 0, []) ∧ decode [25, 1, 0] = .ok (.out 1 0, []) ∧ decode [22] = .ok (.hlt, []) ∧
  decode [24, 1, 3] = .ok (.inp 1 3, []) ∧ decode [14, 9] = .ok (.call 9, []) ∧
  decode [16, 2, 3] = .ok (.cmp 2 3, []) ∧ decode [4, 1] = .ok (.pop 1, []) ∧
  decode [99, 1] = .error (.invalidOpcode 99) ∧ decode [-1] = .error (.invalidOpcode (-1))

/-! The fetch unit and the step -/

/-- R68 and R70: a fetch with `pc` inside memory hands on the cell and moves `pc` on by one as an integer, touching nothing
else; with `pc` outside it takes OutOfBounds with `value = pc` and leaves `pc` as it is (D10; the record D9, log entry 14). -/
def Obligations.FetchReadsThenAdvances : Prop :=
  ∀ (c : DecodeContext) (s : State) (k : Word → State → Out),
    (validIndex s.pc = true →
      ∃ t, fetch c s k = k (s.memRead (cellNo s.pc)) t ∧ t = { s with pc := t.pc } ∧ t.pc.toInt = s.pc.toInt + 1) ∧
    (validIndex s.pc = false →
      fetch c s k = .next { s with running := false, fault := some ⟨.outOfBounds, c.opcode, s.pc, c.operands, s.pc⟩ })

/-- R76 and R78: a running core whose cells at `pc` decode to `i` runs exactly `i`, from the state with `pc` past the opcode
cell; the leniency flag has no part in it. -/
def Obligations.StepRunsDecodedInstruction : Prop :=
  ∀ (lenient : Bool) (s : State) (i : Instr), s.running = true → validIndex s.pc = true → decodedAt s = .ok i →
    cycle lenient s = exec i { s with pc := s.pc + 1 } ∧ step s = exec i { s with pc := s.pc + 1 }

/-- R77 and R62: an unknown opcode, its cell consumed and no operand fetched, is InvalidOpcode, or with leniency no effect.
The fields of the record beside `value` are D9 (log entry 14), and that `step` is the one without leniency is D15 (log entry
4). -/
def Obligations.UnknownOpcodeFaultsOrIsSkipped : Prop :=
  ∀ s : State, s.running = true → validIndex s.pc = true → opcodeOf (s.memRead (cellNo s.pc)) = none →
    step s = .next (s.stopped ⟨.invalidOpcode, some (s.memRead (cellNo s.pc)), s.pc + 1, [], s.memRead (cellNo s.pc)⟩) ∧
    cycle false s = step s ∧
    cycle true s = .next { s with pc := s.pc + 1 }

/-- R62 (D15, log entry 4): leniency changes what a core does at an unknown opcode and nothing else. -/
def Obligations.LeniencyConcernsUnknownOpcodesOnly : Prop :=
  ∀ s : State, cycle true s ≠ cycle false s →
    s.running = true ∧ validIndex s.pc = true ∧ opcodeOf (s.memRead (cellNo s.pc)) = none

/-- R76 with R71 to R74: running the decoded instruction is the same as fetching each operand cell when its turn comes, as the
pseudocode does: a failing check stops with the same state, and after the last operand the instruction completes from there.
The order of fetches and checks is D7, that all come before the effect D8 (log entry 15); the record of a fault state is D9
and its `pc` after a failing fetch D10 (log entry 14). -/
def Obligations.OperandsFetchedOneByOne : Prop :=
  ∀ (lenient : Bool) (s : State) (m : Opcode), s.running = true → validIndex s.pc = true →
    opcodeOf (s.memRead (cellNo s.pc)) = some m →
    (∀ t, fetchEach (Config.opc m) m.operandKinds [] (s.advance 1) = .inl t → cycle lenient s = .next t) ∧
    (∀ ops u, fetchEach (Config.opc m) m.operandKinds [] (s.advance 1) = .inr (ops, u) →
      ∃ i, i.opcode = m ∧ i.operands = ops ∧ WellFormed i = true ∧ faultOf i (s.advance 1) = none ∧
        cycle lenient s = exec i (s.advance 1) ∧ u = s.advance (1 + ops.length))

/-- R83 (D18, log entry 18): a core that is not running has no step, `Run()` leaves it as it is, the host may only read it,
and a reset makes it run again. -/
def Obligations.StoppedCoreHasNoStep : Prop :=
  ∀ s : State, s.running = false →
    (∀ lenient, cycle lenient s = .fault .notRunning) ∧ step s = .fault .notRunning ∧
    (∀ n, runFor n s = .next s) ∧ (∀ index v, hostWrite index v s = .refused .hostReadOnly) ∧
    (applyReset s).running = true

/-- R79: a step of a running core completes (still running unless it was an HLT, the latch as it was), takes a fault, or is
blocked in an IN that no answer comes to (R84; D13, log entry 18); a core that is not running has none (R83). It is never
refused, the stack being unbounded (D5, log entry 6). -/
def Obligations.StepEndsInOneOfThreeWays : Prop :=
  ∀ s : State,
    (s.running = true ∧ ∃ t, step s = .next t ∧ t.fault = s.fault ∧ (t.running = true ∨ decodedAt s = .ok .hlt)) ∨
    (s.running = true ∧ ∃ r, step s = .next (s.stopped r)) ∨
    (s.running = false ∧ step s = .fault .notRunning) ∨
    (∃ reg port, s.running = true ∧ validIndex s.pc = true ∧ decodedAt s = .ok (.inp reg port) ∧ validReg reg = true ∧
      CanFetch 3 s ∧ s.provider.hasAnswer = false ∧ step s = .fault .inputNotSupplied)

/-- R80 and R82 (D16, log entry 7): driving the core for `m + n` iterations is driving it for `m` and then for `n`, and one
iteration of a running core is one step. -/
def Obligations.RunIsRepeatedSteps : Prop :=
  (∀ (m n : Nat) (s t : State), runFor m s = .next t → runFor (m + n) s = runFor n t) ∧
  (∀ (s t : State), s.running = true → step s = .next t → runFor 1 s = .next t)

/-! Faults -/

/-- R75 (D7, D8, log entry 15): an instruction one of whose operand checks fails changes nothing but `pc`, `running` and the
latch, whether or not it would use the operand; and a step after which a fault is latched has done so. -/
def Obligations.FaultingInstructionHasNoEffect : Prop :=
  (∀ (i : Instr) (s : State) (r : FaultRecord), faultOf i s = some r →
    exec i s = .next { s with pc := r.pc, running := false, fault := some r }) ∧
  (∀ (lenient : Bool) (s t : State) (r : FaultRecord), s.fault = none → cycle lenient s = .next t → t.fault = some r →
    t = { s with pc := t.pc, running := false, fault := some r })

/-- R132 (D7, D9, log entries 14 and 15): the table of recorded values, row by row, and the rule that gives `p` from a
record. -/
def Obligations.FaultRecordTable : Prop :=
  ∀ s : State, s.running = true →
    (validIndex s.pc = false → step s = .next (s.stopped ⟨.outOfBounds, none, s.pc, [], s.pc⟩)) ∧
    (validIndex s.pc = true → ∀ v, s.memRead (cellNo s.pc) = v → opcodeOf v = none →
      step s = .next (s.stopped ⟨.invalidOpcode, some v, s.pc + 1, [], v⟩)) ∧
    (validIndex s.pc = true → ∀ i op k ks v vs, decodedAt s = .ok i → s.memRead (cellNo s.pc) = op →
      i.opcode.operandKinds = k :: ks → i.operands = v :: vs →
      (validIndex (s.pc + 1) = false → step s = .next (s.stopped ⟨.outOfBounds, some op, s.pc + 1, [], s.pc + 1⟩)) ∧
      (validIndex (s.pc + 1) = true → ∀ f, operandCheck k v = some f →
        step s = .next (s.stopped ⟨f, some op, s.pc + 2, [v], v⟩)) ∧
      (validIndex (s.pc + 1) = true → operandCheck k v = none → ∀ k' v', ks = [k'] → vs = [v'] →
        (validIndex (s.pc + 2) = false →
          step s = .next (s.stopped ⟨.outOfBounds, some op, s.pc + 2, [v], s.pc + 2⟩)) ∧
        (validIndex (s.pc + 2) = true → ∀ f, operandCheck k' v' = some f →
          step s = .next (s.stopped ⟨f, some op, s.pc + 3, [v, v'], v'⟩)))) ∧
    (∀ t r, s.fault = none → step s = .next t → t.fault = some r →
      s.pc = if r.opcode.isSome then r.pc - BitVec.ofNat 32 r.operands.length - 1 else r.pc)

/-- R131 and R126 (D9, D11, log entry 14): what fault entry writes, that it writes nothing else, and that the run loop then
stops. -/
def Obligations.FaultEntryWritesLatchAndFlag : Prop :=
  ∀ (k : FaultKind) (v : Word) (c : DecodeContext) (s : State),
    raise k v c s = { s with running := false, fault := some ⟨k, c.opcode, s.pc, c.operands, v⟩ } ∧
    (raise k v c s).fault.map FaultRecord.code =
      some (match k with | .outOfBounds => 1 | .invalidRegister => 2 | .invalidOpcode => 3) ∧
    ∀ n, runFor n (raise k v c s) = .next (raise k v c s)

/-- R135 (D9, log entry 14): along every run the latch is written at most once: from a state with a record there is no further
state. -/
def Obligations.LatchWrittenOnce : Prop :=
  ∀ (s t : State) (r : FaultRecord), Inv s → Reaches s t → s.fault = some r → t = s

/-! Data movement -/

/-- LOAD (R86). -/
def Obligations.LoadCopiesCellToRegister : Prop :=
  ∀ (s : State) (reg addr : Word), validReg reg = true → validIndex addr = true → CanFetch 2 s →
    ∃ t, exec (.load reg addr) s = .next t ∧ t.getReg (regNo reg) = s.memRead (cellNo addr) ∧
      (∀ q, q ≠ regNo reg → t.getReg q = s.getReg q) ∧ t = { s with x := t.x, pc := t.pc } ∧
      t.pc.toInt = s.pc.toInt + 2

/-- STORE (R87), on a memory in canonical form (`Inv`). -/
def Obligations.StoreCopiesRegisterToCell : Prop :=
  ∀ (s : State) (reg addr : Word), s.mem.wf = true → validReg reg = true → validIndex addr = true → CanFetch 2 s →
    ∃ t, exec (.store reg addr) s = .next t ∧ t.memRead (cellNo addr) = s.getReg (regNo reg) ∧
      (∀ a, a ≠ cellNo addr → t.memRead a = s.memRead a) ∧ t = { s with mem := t.mem, pc := t.pc } ∧
      t.pc.toInt = s.pc.toInt + 2

/-- MOV (R88). -/
def Obligations.MovCopiesRegister : Prop :=
  ∀ (s : State) (regDst regSrc : Word), validReg regDst = true → validReg regSrc = true → CanFetch 2 s →
    ∃ t, exec (.mov regDst regSrc) s = .next t ∧ t.getReg (regNo regDst) = s.getReg (regNo regSrc) ∧
      (∀ q, q ≠ regNo regDst → t.getReg q = s.getReg q) ∧ t = { s with x := t.x, pc := t.pc } ∧
      t.pc.toInt = s.pc.toInt + 2

/-! Stack -/

/-- PUSH (R89) at any depth, the stack being unbounded by default (D5, log entry 6). -/
def Obligations.PushAppendsRegister : Prop :=
  ∀ (s : State) (reg : Word), validReg reg = true → CanFetch 1 s →
    ∃ t, exec (.push reg) s = .next t ∧ t.stack = s.stack ++ [s.getReg (regNo reg)] ∧
      t = { s with stack := t.stack, pc := t.pc } ∧ t.pc.toInt = s.pc.toInt + 1

/-- POP (R90), with the defined no-op on an empty stack (R23). -/
def Obligations.PopMovesTopToRegister : Prop :=
  ∀ (s : State) (reg : Word), validReg reg = true → CanFetch 1 s →
    (∀ st v, s.stack = st ++ [v] →
      ∃ t, exec (.pop reg) s = .next t ∧ t.stack = st ∧ t.getReg (regNo reg) = v ∧
        (∀ q, q ≠ regNo reg → t.getReg q = s.getReg q) ∧ t = { s with x := t.x, stack := st, pc := t.pc } ∧
        t.pc.toInt = s.pc.toInt + 1) ∧
    (s.stack = [] → ∃ t, exec (.pop reg) s = .next t ∧ t = { s with pc := t.pc } ∧ t.pc.toInt = s.pc.toInt + 1)

/-- R91: PUSH `a` followed immediately by POP `b` performs `x[b] <- x[a]` and leaves the stack as it was. -/
def Obligations.PushThenPopMovesRegister : Prop :=
  ∀ (s : State) (a b : Word), s.running = true → CanFetch 4 s → decodedAt s = .ok (.push a) →
    decodedAt { s with pc := s.pc + 2 } = .ok (.pop b) → validReg a = true → validReg b = true →
    ∃ t u, step s = .next t ∧ step t = .next u ∧ u.getReg (regNo b) = s.getReg (regNo a) ∧
      (∀ q, q ≠ regNo b → u.getReg q = s.getReg q) ∧ u = { s with x := u.x, pc := u.pc } ∧
      u.pc.toInt = s.pc.toInt + 4

/-- R24 (D5, log entry 6): a push under a finite bound is refused exactly on a full stack; without a bound it never is. -/
def Obligations.StackBoundRefusesOnlyWhenFull : Prop :=
  ∀ (v : Word) (s : State) (k : State → Out) (c : Nat),
    pushWithin none v s k = k { s with stack := s.stack ++ [v] } ∧
    (s.stack.length < c → pushWithin (some c) v s k = k { s with stack := s.stack ++ [v] }) ∧
    (c ≤ s.stack.length → pushWithin (some c) v s k = .refused .stackCapacity)

/-! Arithmetic -/

/-- ADD, SUB and MUL (R92, R93, R95, R96, R97): the exact result modulo `2^W`, both values read before the write. For SUB and
MUL the wrap is D3 (log entry 12), and `W = 32` is D2 (log entry 1). -/
def Obligations.AddSubMulWrapAround : Prop :=
  ∀ (s : State) (reg1 reg2 : Word), validReg reg1 = true → validReg reg2 = true → CanFetch 2 s →
    ∀ (i : Instr) (z : Int),
      (i = .add reg1 reg2 ∧ z = (s.getReg (regNo reg1)).toInt + (s.getReg (regNo reg2)).toInt) ∨
      (i = .sub reg1 reg2 ∧ z = (s.getReg (regNo reg1)).toInt - (s.getReg (regNo reg2)).toInt) ∨
      (i = .mul reg1 reg2 ∧ z = (s.getReg (regNo reg1)).toInt * (s.getReg (regNo reg2)).toInt) →
      ∃ t, exec i s = .next t ∧ Wraps (t.getReg (regNo reg1)) z ∧
        (∀ q, q ≠ regNo reg1 → t.getReg q = s.getReg q) ∧ t = { s with x := t.x, pc := t.pc } ∧
        t.pc.toInt = s.pc.toInt + 2

/-- INC and DEC (R92, R99, R100), wrapping by D3 (log entry 12). -/
def Obligations.IncDecWrapAround : Prop :=
  ∀ (s : State) (reg : Word), validReg reg = true → CanFetch 1 s →
    ∀ (i : Instr) (z : Int),
      (i = .inc reg ∧ z = (s.getReg (regNo reg)).toInt + 1) ∨
      (i = .dec reg ∧ z = (s.getReg (regNo reg)).toInt - 1) →
      ∃ t, exec i s = .next t ∧ Wraps (t.getReg (regNo reg)) z ∧
        (∀ q, q ≠ regNo reg → t.getReg q = s.getReg q) ∧ t = { s with x := t.x, pc := t.pc } ∧
        t.pc.toInt = s.pc.toInt + 1

/-- R94 (D4, log entry 11): the ALU's quotient is the truncated one, and only `MIN / -1`, which gives `MIN`, is reduced. -/
def Obligations.DivisionTruncates : Prop :=
  ∀ a b : Word, b ≠ 0 →
    ∃ q : Int, IsQuotient a.toInt b.toInt q ∧ Wraps (aluDiv a b) q ∧
      (¬ (a = Word.minValue ∧ b = -1) → (aluDiv a b).toInt = q) ∧
      (a = Word.minValue → b = -1 → aluDiv a b = Word.minValue)

/-- DIV (R98): the truncated quotient (D4, log entry 11), and on a zero divisor nothing but the advance of `pc`. -/
def Obligations.DivDividesOrSkips : Prop :=
  ∀ (s : State) (reg1 reg2 : Word), validReg reg1 = true → validReg reg2 = true → CanFetch 2 s →
    (s.getReg (regNo reg2) ≠ 0 →
      ∃ t q, exec (.div reg1 reg2) s = .next t ∧
        IsQuotient (s.getReg (regNo reg1)).toInt (s.getReg (regNo reg2)).toInt q ∧ Wraps (t.getReg (regNo reg1)) q ∧
        (∀ q, q ≠ regNo reg1 → t.getReg q = s.getReg q) ∧ t = { s with x := t.x, pc := t.pc } ∧
        t.pc.toInt = s.pc.toInt + 2) ∧
    (s.getReg (regNo reg2) = 0 →
      ∃ t, exec (.div reg1 reg2) s = .next t ∧ t = { s with pc := t.pc } ∧ t.pc.toInt = s.pc.toInt + 2)

/-! Control transfer -/

/-- JMP (R103). -/
def Obligations.JmpSetsPc : Prop :=
  ∀ (s : State) (addr : Word), validIndex addr = true → CanFetch 1 s →
    exec (.jmp addr) s = .next { s with pc := addr }

/-- JZ and JNZ (R104, R105): register 0 decides, as a whole value. -/
def Obligations.ConditionalJumpsTestRegisterZero : Prop :=
  ∀ (s : State) (addr : Word), validIndex addr = true → CanFetch 1 s →
    ∃ p, p.toInt = s.pc.toInt + 1 ∧
      ((s.getReg 0).toInt = 0 →
        exec (.jz addr) s = .next { s with pc := addr } ∧ exec (.jnz addr) s = .next { s with pc := p }) ∧
      ((s.getReg 0).toInt ≠ 0 →
        exec (.jz addr) s = .next { s with pc := p } ∧ exec (.jnz addr) s = .next { s with pc := addr })

/-- CALL (R106): the pushed value is the index of the cell after the operand; the stack has no bound (D5, log entry 6). -/
def Obligations.CallPushesReturnAddress : Prop :=
  ∀ (s : State) (addr : Word), validIndex addr = true → CanFetch 1 s →
    ∃ ret, ret.toInt = s.pc.toInt + 1 ∧
      exec (.call addr) s = .next { s with stack := s.stack ++ [ret], pc := addr }

/-- RET (R107): the popped value is not checked (D17, log entry 16); on an empty stack it falls through. -/
def Obligations.RetPopsPc : Prop :=
  ∀ s : State,
    (∀ st v, s.stack = st ++ [v] → exec .ret s = .next { s with stack := st, pc := v }) ∧
    (s.stack = [] → exec .ret s = .next s)

/-- R108: after a CALL at `p`, a RET executed with the stack as the CALL left it resumes at `p + 2` with the stack as it
was. -/
def Obligations.RetResumesAfterCall : Prop :=
  ∀ (s : State) (addr : Word), s.running = true → CanFetch 2 s → decodedAt s = .ok (.call addr) →
    validIndex addr = true →
    ∃ t, step s = .next t ∧ t.pc = addr ∧
      ∀ u, u.running = true → validIndex u.pc = true → decodedAt u = .ok .ret → u.stack = t.stack →
        ∃ w, step u = .next w ∧ w.pc.toInt = s.pc.toInt + 2 ∧ w.stack = s.stack

/-- R81 and the corner case of R103: a JMP to its own opcode cell runs for ever. -/
def Obligations.JmpToItselfNeverEnds : Prop :=
  ∀ s : State, s.running = true → CanFetch 2 s → decodedAt s = .ok (.jmp s.pc) → ∀ n, runFor n s = .next s

/-! Comparison and bitwise -/

/-- CMP (R109): register 0 is written with the outcome on the values before the write. -/
def Obligations.CmpWritesEquality : Prop :=
  ∀ (s : State) (reg1 reg2 : Word), validReg reg1 = true → validReg reg2 = true → CanFetch 2 s →
    ∃ t, exec (.cmp reg1 reg2) s = .next t ∧
      ((s.getReg (regNo reg1)).toInt = (s.getReg (regNo reg2)).toInt → (t.getReg 0).toInt = 1) ∧
      ((s.getReg (regNo reg1)).toInt ≠ (s.getReg (regNo reg2)).toInt → (t.getReg 0).toInt = 0) ∧
      (∀ q, q ≠ 0 → t.getReg q = s.getReg q) ∧ t = { s with x := t.x, pc := t.pc } ∧ t.pc.toInt = s.pc.toInt + 2

/-- AND, OR and XOR (R110 to R113), bit by bit on the two's-complement pattern (D2, log entry 13). -/
def Obligations.BitwiseActsOnEachBit : Prop :=
  ∀ (s : State) (reg1 reg2 : Word), validReg reg1 = true → validReg reg2 = true → CanFetch 2 s →
    ∀ (i : Instr) (f : Bool → Bool → Bool),
      (i = .and reg1 reg2 ∧ f = fun a b => a && b) ∨ (i = .or reg1 reg2 ∧ f = fun a b => a || b) ∨
      (i = .xor reg1 reg2 ∧ f = fun a b => a != b) →
      ∃ t, exec i s = .next t ∧
        (∀ n, n < 32 → (t.getReg (regNo reg1)).getLsbD n =
          f ((s.getReg (regNo reg1)).getLsbD n) ((s.getReg (regNo reg2)).getLsbD n)) ∧
        (∀ q, q ≠ regNo reg1 → t.getReg q = s.getReg q) ∧ t = { s with x := t.x, pc := t.pc } ∧
        t.pc.toInt = s.pc.toInt + 2

/-- NOT (R110, R114): every bit inverted, in integer terms `-v - 1` (two's complement: D2, log entry 13). -/
def Obligations.NotComplements : Prop :=
  ∀ (s : State) (reg : Word), validReg reg = true → CanFetch 1 s →
    ∃ t, exec (.not reg) s = .next t ∧ (t.getReg (regNo reg)).toInt = -(s.getReg (regNo reg)).toInt - 1 ∧
      (∀ n, n < 32 → (t.getReg (regNo reg)).getLsbD n = !(s.getReg (regNo reg)).getLsbD n) ∧
      (∀ q, q ≠ regNo reg → t.getReg q = s.getReg q) ∧ t = { s with x := t.x, pc := t.pc } ∧
      t.pc.toInt = s.pc.toInt + 1

/-! System and I/O -/

/-- INT and OUT (R117, R121): one event at the end of the history and nothing else; any code and any port. -/
def Obligations.IntAndOutEmitOneEvent : Prop :=
  ∀ (s : State),
    (∀ code, CanFetch 1 s → ∃ p, p.toInt = s.pc.toInt + 1 ∧
      exec (.int code) s = .next { s with io := s.io ++ [.interrupt code], pc := p }) ∧
    (∀ port reg, validReg reg = true → CanFetch 2 s → ∃ p, p.toInt = s.pc.toInt + 2 ∧
      exec (.out port reg) s = .next { s with io := s.io ++ [.output port (s.getReg (regNo reg))], pc := p })

/-- IN (R120): an answered request writes the whole register and is recorded; a script answers in order, and a free provider
(log entry 5) with some value. -/
def Obligations.InWritesTheAnswer : Prop :=
  ∀ (s : State) (reg port : Word), validReg reg = true → CanFetch 2 s →
    (∀ v vs, s.provider = .script (v :: vs) →
      ∃ t, exec (.inp reg port) s = .next t ∧ t.getReg (regNo reg) = v ∧ t.io = s.io ++ [.input port v] ∧
        t.provider = .script vs ∧ (∀ q, q ≠ regNo reg → t.getReg q = s.getReg q) ∧
        t = { s with x := t.x, io := t.io, provider := t.provider, pc := t.pc } ∧ t.pc.toInt = s.pc.toInt + 2) ∧
    (∀ n, s.provider = .free n →
      ∃ t v, exec (.inp reg port) s = .next t ∧ t.getReg (regNo reg) = v ∧ t.io = s.io ++ [.input port v] ∧
        t.provider = .free (n + 1) ∧ (∀ q, q ≠ regNo reg → t.getReg q = s.getReg q) ∧
        t = { s with x := t.x, io := t.io, provider := t.provider, pc := t.pc } ∧ t.pc.toInt = s.pc.toInt + 2)

/-- R84 (D13, log entry 18): an IN that no answer comes to never completes, and its request is made only after its operands
are checked: with a bad register it faults and the provider keeps its answers (R120). -/
def Obligations.InWaitsForAnAnswer : Prop :=
  ∀ (s : State) (reg port : Word),
    (validReg reg = true → CanFetch 2 s → s.provider.hasAnswer = false →
      exec (.inp reg port) s = .fault .inputNotSupplied) ∧
    (validReg reg = false → CanFetch 1 s →
      exec (.inp reg port) s = .next (s.stopped ⟨.invalidRegister, some (Config.opc .inp), s.pc + 1, [reg], reg⟩))

/-- HLT (R118): it clears the flag and changes nothing else beyond its cell; no further iteration is made; and a step that
stops the core without a fault was an HLT. -/
def Obligations.HltStopsTheCore : Prop :=
  (∀ s, exec .hlt s = .next { s with running := false }) ∧
  (∀ s, s.running = true → validIndex s.pc = true → s.memRead (cellNo s.pc) = Config.opc .hlt →
    step s = .next { s with pc := s.pc + 1, running := false } ∧
    ∀ n, runFor (n + 1) s = .next { s with pc := s.pc + 1, running := false }) ∧
  (∀ s t, step s = .next t → t.running = false → t.fault = none →
    validIndex s.pc = true ∧ s.memRead (cellNo s.pc) = Config.opc .hlt)

/-- NOP (R119): its cell is consumed and nothing else changes. -/
def Obligations.NopOnlyAdvances : Prop :=
  (∀ s, exec .nop s = .next s) ∧
  (∀ s, s.running = true → validIndex s.pc = true → s.memRead (cellNo s.pc) = Config.opc .nop →
    ∃ t, step s = .next t ∧ t = { s with pc := t.pc } ∧ t.pc.toInt = s.pc.toInt + 1)

/-- R115: what the sink receives from one instruction: an Output event with port and value and no code from OUT, an Interrupt
event with its code and no port or value from INT, nothing from any other, in the order of the history. -/
def Obligations.SinkReceivesOutAndInt : Prop :=
  ∀ (i : Instr) (s t : State), exec i s = .next t → faultOf i s = none →
    sinkEvents t = sinkEvents s ++ sinkEventOf i s

/-! Frames, over all 26 instructions -/

/-- R14, R16: a next state of any instruction differs in no register but those the table gives it. -/
def Obligations.RegistersWrittenAreTheTables : Prop :=
  ∀ (i : Instr) (s t : State), exec i s = .next t → ∀ q, q ∉ regsWritten i → t.getReg q = s.getReg q

/-- R37, R40: every cell but the one STORE's operand names reads as before; for every other instruction, all of memory. -/
def Obligations.MemoryWrittenByStoreOnly : Prop :=
  ∀ (i : Instr) (s t : State), s.mem.wf = true → exec i s = .next t →
    ∀ a, storeTarget i ≠ some a → t.memRead a = s.memRead a

/-- R21, R89, R90, R106, R107: the stack after any instruction: as it was, but for PUSH, POP, CALL and RET at its top. -/
def Obligations.StackChangesAtTheTopOnly : Prop :=
  ∀ (i : Instr) (s t : State), exec i s = .next t →
    (faultOf i s = none → t.stack = stackAfter i (s.advance i.operands.length)) ∧
    ((faultOf i s).isSome = true → t.stack = s.stack)

/-- R31 (D14, log entry 20): the history after any instruction: as it was, and the transaction of INT, OUT or IN at its
end. -/
def Obligations.HistoryGrowsByOneTransaction : Prop :=
  ∀ (i : Instr) (s t : State), exec i s = .next t →
    (faultOf i s = none → t.io = s.io ++ (ioEventOf i s).toList) ∧
    ((faultOf i s).isSome = true → t.io = s.io)

/-- R25, R26, R116: an instruction that takes no fault leaves the latch alone, only HLT clears the running flag, and only IN
takes an answer of the provider. -/
def Obligations.ControlStateKeptByInstructions : Prop :=
  ∀ (i : Instr) (s t : State), exec i s = .next t → faultOf i s = none →
    t.fault = s.fault ∧ t.running = (if i = .hlt then false else s.running) ∧
    ((∀ reg port, i ≠ .inp reg port) → t.provider = s.provider)

/-- R20: each fetch advances `pc` by exactly 1, and `pc` when a step ends without a fault is what the table says; `pcAfter`
reads the state after the opcode fetch, where `pc` is `p + 1`, and a value not transferred to is `p` plus the length in
cells. -/
def Obligations.PcAfterEachInstruction : Prop :=
  (∀ (c : DecodeContext) (s : State) (k : Word → State → Out), validIndex s.pc = true →
    ∃ t, fetch c s k = k (s.memRead (cellNo s.pc)) t ∧ t.pc.toInt = s.pc.toInt + 1) ∧
  ∀ (lenient : Bool) (i : Instr) (s t : State), validIndex s.pc = true → decodedAt s = .ok i →
    cycle lenient s = .next t → faultOf i (s.advance 1) = none →
    t.pc = pcAfter i (s.advance 1) ∧
    ((s.advance 1).pc + BitVec.ofNat 32 i.operands.length).toInt = s.pc.toInt + (encode i).length ∧
    (∀ addr, i = .call addr → ∃ ret, ret.toInt = s.pc.toInt + 2 ∧ t.stack = s.stack ++ [ret])

/-! Rules of the whole machine -/

/-- R33 and R143: what reset leaves, from any state (the stack D22, the latch D9, the history D14, log entry 17); the
provider, outside the core, keeps its answers (log entry 5). -/
def Obligations.ResetState : Prop :=
  ∀ s : State,
    (∀ a, (applyReset s).memRead a = 0) ∧ (∀ r, (applyReset s).getReg r = 0) ∧ (applyReset s).pc = 0 ∧
    (applyReset s).running = true ∧ (applyReset s).stack = [] ∧ (applyReset s).fault = none ∧ (applyReset s).io = [] ∧
    applyReset s = { State.reset with provider := s.provider }

/-- The state after reset has the invariant. -/
def Obligations.ResetHasTheInvariant : Prop := Inv State.reset

/-- Every step keeps the invariant (R27, R28, R34, R131, R155), lenient or not, from every state that has it. -/
def Obligations.StepKeepsTheInvariant : Prop :=
  ∀ (lenient : Bool) (s t : State), Inv s → cycle lenient s = .next t → Inv t

/-- R26: the flag is true after reset, cleared by exactly two events, HLT and fault entry, and written back by no step; while
it is clear there is no fetch; the host reads it at any time and a host write leaves it. The premise on the latch is the
invariant's (R28). -/
def Obligations.RunningClearedByHltOrFault : Prop :=
  (∀ s, (applyReset s).running = true) ∧
  (∀ s, (status s).1 = s.running) ∧
  (∀ index v s t, hostWrite index v s = .next t → t.running = s.running) ∧
  (∀ (s : State), s.running = false → (∀ lenient, cycle lenient s = .fault .notRunning) ∧ ∀ n, runFor n s = .next s) ∧
  ∀ (lenient : Bool) (s t : State), s.fault = none → cycle lenient s = .next t →
    s.running = true ∧
    (t.running = false ↔ t.fault.isSome = true ∨ (validIndex s.pc = true ∧ decodedAt s = .ok .hlt))

/-- R18: after a step `pc` lies in `0 .. MEMCAP`, or is the value a RET popped, or is the bad value whose fetch failed. -/
def Obligations.PcLeavesMemoryInTwoWaysOnly : Prop :=
  ∀ (lenient : Bool) (s t : State), cycle lenient s = .next t →
    (0 ≤ t.pc.toInt ∧ t.pc.toInt ≤ Config.memCap) ∨
    (decodedAt s = .ok .ret ∧ s.stack.getLast? = some t.pc) ∨
    (validIndex s.pc = false ∧ t.pc = s.pc)

/-- R31 (D14, log entry 20): along every run the history only grows. -/
def Obligations.HistoryOnlyGrows : Prop :=
  ∀ s t : State, Reaches s t → s.io <+: t.io

/-- R31 (D14, log entry 20): no instruction reads the history: with another history the step does the same and adds the same
entries. -/
def Obligations.HistoryIsNeverRead : Prop :=
  ∀ (lenient : Bool) (s : State) (io' : List IoEvent),
    (∀ t, cycle lenient s = .next t →
      ∃ added, t.io = s.io ++ added ∧
        cycle lenient { s with io := io' } = .next { t with io := io' ++ added }) ∧
    (∀ f, cycle lenient s = .fault f → cycle lenient { s with io := io' } = .fault f)

/-- R25: no instruction reads the latch: with another content the step does the same, and either leaves that content or writes
the same record. -/
def Obligations.LatchIsNeverRead : Prop :=
  ∀ (lenient : Bool) (s : State) (f : Option FaultRecord), s.fault = none →
    (∀ t, cycle lenient s = .next t →
      cycle lenient { s with fault := f } = .next (if t.fault.isSome then t else { t with fault := f })) ∧
    (∀ r, cycle lenient s = .fault r → cycle lenient { s with fault := f } = .fault r)

/-- R49: a STORE is seen by every later fetch of its cell, with no fence, while no other write comes between. -/
def Obligations.StoreIsSeenByTheFetch : Prop :=
  ∀ (s : State) (reg addr : Word), s.running = true → s.mem.wf = true → CanFetch 3 s →
    decodedAt s = .ok (.store reg addr) → validReg reg = true → validIndex addr = true →
    ∃ t, step s = .next t ∧ ∀ (u : State) (c : DecodeContext) (k : Word → State → Out),
      u.mem = t.mem → u.pc = addr → fetch c u k = k (s.getReg (regNo reg)) { u with pc := u.pc + 1 }

/-- R60: under the default numbering (D1, log entry 3) three zero cells are a `LOAD 0,0`. -/
def Obligations.ZeroCellsLoadRegisterZero : Prop :=
  ∀ s : State, s.running = true → CanFetch 3 s → s.memRead (cellNo s.pc) = 0 → s.memRead (cellNo s.pc + 1) = 0 →
    s.memRead (cellNo s.pc + 2) = 0 →
    ∃ t, step s = .next t ∧ t.getReg 0 = s.memRead 0 ∧ (∀ q, q ≠ 0 → t.getReg q = s.getReg q) ∧
      t = { s with x := t.x, pc := t.pc } ∧ t.pc.toInt = s.pc.toInt + 3

/-- R51, R145 (D19, log entry 9): a host write replaces one cell of a running core and is refused at a bad index; a stopped
core is read-only to the host. -/
def Obligations.HostWriteReplacesOneCellOrIsRefused : Prop :=
  ∀ (s : State) (index : Int) (v : Word), s.mem.wf = true →
    (s.running = true → 0 ≤ index → index < Config.memCap →
      ∃ t, hostWrite index v s = .next t ∧ t = { s with mem := t.mem } ∧ t.mem.wf = true ∧
        t.memRead index.toNat = v ∧ ∀ a, a ≠ index.toNat → t.memRead a = s.memRead a) ∧
    (s.running = true → ¬ (0 ≤ index ∧ index < Config.memCap) → hostWrite index v s = .refused .hostIndex) ∧
    (s.running = false → hostWrite index v s = .refused .hostReadOnly)
end

