-- ==== Sys2Proof/Laws/Alu.lean ====
section
/-! SUPPORT. `wrap` gives the word R7 describes, and every ALU operation is one. -/
namespace Sys2Proof.Machine

/-- `wrap z` is congruent to `z` modulo `2^W` (R7). -/
theorem wraps_wrap (z : Int) : Wraps (wrap z) z := by
  simp only [Wraps, wrap, BitVec.toInt_ofInt]
  exact Int.emod_eq_emod_iff_emod_sub_eq_zero.mp (Int.bmod_emod (x := z) (m := 2 ^ 32))

/-- Two words congruent to the same integer are equal: R7's "unique". -/
theorem wraps_unique {v w : Word} {z : Int} (hv : Wraps v z) (hw : Wraps w z) : v = w := by
  have h1 := BitVec.le_toInt v
  have h2 := BitVec.toInt_lt (x := v)
  have h3 := BitVec.le_toInt w
  have h4 := BitVec.toInt_lt (x := w)
  simp only [Wraps] at hv hw
  refine BitVec.eq_of_toInt_eq ?_
  norm_num at h1 h2 h3 h4
  omega

theorem aluAdd_wraps (a b : Word) : Wraps (aluAdd a b) (a.toInt + b.toInt) := wraps_wrap _

theorem aluSub_wraps (a b : Word) : Wraps (aluSub a b) (a.toInt - b.toInt) := wraps_wrap _

theorem aluMul_wraps (a b : Word) : Wraps (aluMul a b) (a.toInt * b.toInt) := wraps_wrap _

theorem aluInc_wraps (a : Word) : Wraps (aluInc a) (a.toInt + 1) := wraps_wrap _

theorem aluDec_wraps (a : Word) : Wraps (aluDec a) (a.toInt - 1) := wraps_wrap _

theorem aluDiv_wraps (a b : Word) : Wraps (aluDiv a b) (Int.tdiv a.toInt b.toInt) := wraps_wrap _

/-- A non-zero word has a non-zero value. -/
theorem toInt_ne_zero {b : Word} (h : b ≠ 0) : b.toInt ≠ 0 := fun hb =>
  h (BitVec.eq_of_toInt_eq (by simpa using hb))

end Sys2Proof.Machine
end

