-- ==== Sys2Proof/Laws/Encoding.lean ====
section
/-! SUPPORT. `OPC` is injective (R6), and the decoder finds every number it gives. -/
namespace Sys2Proof

theorem opc_injective (m n : Opcode) (h : Config.opc m = Config.opc n) : m = n := by
  revert h; cases m <;> cases n <;> decide

@[simp] theorem opcodeOf_opc (m : Opcode) : opcodeOf (Config.opc m) = some m := by
  cases m <;> decide

theorem opc_of_opcodeOf {v : Word} {m : Opcode} (h : opcodeOf v = some m) : v = Config.opc m := by
  have := List.find?_some h
  exact (eq_of_beq this).symm

theorem operands_length (i : Instr) : i.operands.length = i.opcode.operandKinds.length := by
  cases i <;> rfl

end Sys2Proof
end

