-- ==== Sys2Proof/Laws/Memory.lean ====
section
/-! SUPPORT. Reading after writing, and the canonical form: every memory operation keeps it, and reset's memory has it. -/
namespace Sys2Proof.Machine

theorem Memory.wfFrom_cons {lo a : Nat} {v : Word} {m : Memory} :
    Memory.wfFrom lo ((a, v) :: m) = true ↔
      lo ≤ a ∧ a < Config.memCap ∧ v ≠ Memory.unlisted ∧ Memory.wfFrom (a + 1) m = true := by
  simp [Memory.wfFrom, and_assoc]

theorem Memory.wfFrom_mono {lo lo' : Nat} (h : lo' ≤ lo) {m : Memory} (hm : Memory.wfFrom lo m = true) :
    Memory.wfFrom lo' m = true := by
  cases m with
  | nil => rfl
  | cons p m =>
    obtain ⟨a, v⟩ := p
    rw [Memory.wfFrom_cons] at hm ⊢
    exact ⟨h.trans hm.1, hm.2⟩

/-- Below its first index a canonical list holds nothing. -/
theorem Memory.read_below {lo a : Nat} {m : Memory} (hm : Memory.wfFrom lo m = true) (ha : a < lo) :
    m.read a = Memory.unlisted := by
  induction m generalizing lo with
  | nil => rfl
  | cons p m ih =>
    obtain ⟨b, w⟩ := p
    obtain ⟨hb, -, -, htail⟩ := Memory.wfFrom_cons.mp hm
    rw [Memory.read, if_neg (by omega)]
    exact ih htail (by omega)

theorem Memory.wfFrom_put {lo a : Nat} {v : Word} {m : Memory} (hlo : lo ≤ a) (ha : a < Config.memCap)
    (hm : Memory.wfFrom (a + 1) m = true) : Memory.wfFrom lo (Memory.put a v m) = true := by
  unfold Memory.put
  split
  · exact Memory.wfFrom_mono (by omega) hm
  · next h => exact Memory.wfFrom_cons.mpr ⟨hlo, ha, h, hm⟩

theorem Memory.wfFrom_write {lo a : Nat} {v : Word} {m : Memory} (hlo : lo ≤ a) (ha : a < Config.memCap)
    (hm : Memory.wfFrom lo m = true) : Memory.wfFrom lo (m.write a v) = true := by
  induction m generalizing lo with
  | nil => exact Memory.wfFrom_put hlo ha rfl
  | cons p m ih =>
    obtain ⟨b, w⟩ := p
    obtain ⟨hb, hcap, hw, htail⟩ := Memory.wfFrom_cons.mp hm
    simp only [Memory.write]
    split
    · next h => exact Memory.wfFrom_put hlo ha (Memory.wfFrom_cons.mpr ⟨by omega, hcap, hw, htail⟩)
    · split
      · next _ h => subst h; exact Memory.wfFrom_put hlo ha htail
      · exact Memory.wfFrom_cons.mpr ⟨hb, hcap, hw, ih (by omega) htail⟩

/-- A write to a valid index keeps the canonical form. -/
theorem Memory.wf_write {a : Nat} {m : Memory} (v : Word) (ha : a < Config.memCap) (hm : m.wf = true) :
    (m.write a v).wf = true := Memory.wfFrom_write (Nat.zero_le a) ha hm

theorem Memory.wf_reset : State.reset.mem.wf = true := rfl

theorem Memory.read_put {lo a b : Nat} {v : Word} {m : Memory} (hm : Memory.wfFrom lo m = true) (hlo : a < lo) :
    (Memory.put a v m).read b = if b = a then v else m.read b := by
  unfold Memory.put
  split
  · next h =>
    split
    · next h' => rw [h', Memory.read_below hm hlo, h]
    · rfl
  · rfl

/-- A read after a write (R39, R40): the written cell holds the value written, every other cell what it held. -/
theorem Memory.read_writeFrom {lo a b : Nat} {v : Word} {m : Memory} (hm : Memory.wfFrom lo m = true) :
    (m.write a v).read b = if b = a then v else m.read b := by
  induction m generalizing lo with
  | nil => exact Memory.read_put (lo := a + 1) rfl (by omega)
  | cons p m ih =>
    obtain ⟨c, w⟩ := p
    obtain ⟨-, hcap, hw, htail⟩ := Memory.wfFrom_cons.mp hm
    simp only [Memory.write]
    split
    · next h =>
      exact Memory.read_put (lo := c) (Memory.wfFrom_cons.mpr ⟨le_refl c, hcap, hw, htail⟩) h
    · split
      · next _ h =>
        subst h
        rw [Memory.read_put htail (by omega)]
        split
        · rfl
        · next h => rw [Memory.read, if_neg h]
      · next _ h =>
        simp only [Memory.read, ih htail]
        split <;> split <;> simp_all

theorem Memory.read_write {a b : Nat} {v : Word} {m : Memory} (hm : m.wf = true) :
    (m.write a v).read b = if b = a then v else m.read b := Memory.read_writeFrom hm

/-- Placing cells keeps the canonical form. -/
theorem wf_placeCells (a : Nat) (vs : List Word) (s : State) (h : s.mem.wf = true) :
    (placeCells a vs s).mem.wf = true := by
  induction vs generalizing a s with
  | nil => exact h
  | cons v vs ih =>
    refine ih (a + 1) _ ?_
    split
    · next ha => exact Memory.wf_write v ha h
    · exact h

/-- Equal reads make equal canonical memories: the form is unique. -/
theorem Memory.eq_of_read {lo : Nat} {m m' : Memory} (hm : Memory.wfFrom lo m = true)
    (hm' : Memory.wfFrom lo m' = true) (h : ∀ a, m.read a = m'.read a) : m = m' := by
  induction m generalizing lo m' with
  | nil =>
    cases m' with
    | nil => rfl
    | cons p m' =>
      obtain ⟨a, v⟩ := p
      have := h a
      simp only [Memory.read, if_true] at this
      exact absurd this.symm (Memory.wfFrom_cons.mp hm').2.2.1
  | cons p m ih =>
    obtain ⟨a, v⟩ := p
    obtain ⟨ha, _, hv, htail⟩ := Memory.wfFrom_cons.mp hm
    cases m' with
    | nil =>
      have := h a
      simp only [Memory.read, if_true] at this
      exact absurd this hv
    | cons q m' =>
      obtain ⟨b, w⟩ := q
      obtain ⟨hb, _, hw, htail'⟩ := Memory.wfFrom_cons.mp hm'
      have hab : a = b := by
        rcases Nat.lt_trichotomy a b with hlt | heq | hgt
        · have := h a
          rw [Memory.read, if_pos rfl, Memory.read_below (lo := b) (Memory.wfFrom_cons.mpr ⟨le_refl b, by assumption, hw, htail'⟩) hlt] at this
          exact absurd this hv
        · exact heq
        · have := h b
          rw [Memory.read_below (lo := a) (Memory.wfFrom_cons.mpr ⟨le_refl a, by assumption, hv, htail⟩) hgt, Memory.read, if_pos rfl] at this
          exact absurd this.symm hw
      subst hab
      have hvw : v = w := by simpa [Memory.read] using h a
      subst hvw
      refine congrArg _ (ih htail htail' fun c => ?_)
      by_cases hc : c = a
      · subst hc
        rw [Memory.read_below htail (by omega), Memory.read_below htail' (by omega)]
      · simpa [Memory.read, hc] using h c

end Sys2Proof.Machine
end

