-- ==== Sys2Proof/Laws/State.lean ====
section
/-! SUPPORT. Every field of the state after every update, by rfl; no later proof unfolds a record update. -/
namespace Sys2Proof.Machine

variable (s : State)

@[simp] theorem setReg_mem (r : RegNo) (v : Word) : (s.setReg r v).mem = s.mem := rfl
@[simp] theorem setReg_x (r : RegNo) (v : Word) : (s.setReg r v).x = s.x.set r v := rfl
@[simp] theorem setReg_stack (r : RegNo) (v : Word) : (s.setReg r v).stack = s.stack := rfl
@[simp] theorem setReg_pc (r : RegNo) (v : Word) : (s.setReg r v).pc = s.pc := rfl
@[simp] theorem setReg_running (r : RegNo) (v : Word) : (s.setReg r v).running = s.running := rfl
@[simp] theorem setReg_fault (r : RegNo) (v : Word) : (s.setReg r v).fault = s.fault := rfl
@[simp] theorem setReg_io (r : RegNo) (v : Word) : (s.setReg r v).io = s.io := rfl
@[simp] theorem setReg_provider (r : RegNo) (v : Word) : (s.setReg r v).provider = s.provider := rfl

@[simp] theorem setPc_mem (v : Word) : (s.setPc v).mem = s.mem := rfl
@[simp] theorem setPc_x (v : Word) : (s.setPc v).x = s.x := rfl
@[simp] theorem setPc_stack (v : Word) : (s.setPc v).stack = s.stack := rfl
@[simp] theorem setPc_pc (v : Word) : (s.setPc v).pc = v := rfl
@[simp] theorem setPc_running (v : Word) : (s.setPc v).running = s.running := rfl
@[simp] theorem setPc_fault (v : Word) : (s.setPc v).fault = s.fault := rfl
@[simp] theorem setPc_io (v : Word) : (s.setPc v).io = s.io := rfl
@[simp] theorem setPc_provider (v : Word) : (s.setPc v).provider = s.provider := rfl

@[simp] theorem advance_mem (n : Nat) : (s.advance n).mem = s.mem := rfl
@[simp] theorem advance_x (n : Nat) : (s.advance n).x = s.x := rfl
@[simp] theorem advance_stack (n : Nat) : (s.advance n).stack = s.stack := rfl
@[simp] theorem advance_pc (n : Nat) : (s.advance n).pc = s.pc + BitVec.ofNat 32 n := rfl
@[simp] theorem advance_running (n : Nat) : (s.advance n).running = s.running := rfl
@[simp] theorem advance_fault (n : Nat) : (s.advance n).fault = s.fault := rfl
@[simp] theorem advance_io (n : Nat) : (s.advance n).io = s.io := rfl
@[simp] theorem advance_provider (n : Nat) : (s.advance n).provider = s.provider := rfl

@[simp] theorem memWrite_mem (a : Nat) (v : Word) : (s.memWrite a v).mem = s.mem.write a v := rfl
@[simp] theorem memWrite_x (a : Nat) (v : Word) : (s.memWrite a v).x = s.x := rfl
@[simp] theorem memWrite_stack (a : Nat) (v : Word) : (s.memWrite a v).stack = s.stack := rfl
@[simp] theorem memWrite_pc (a : Nat) (v : Word) : (s.memWrite a v).pc = s.pc := rfl
@[simp] theorem memWrite_running (a : Nat) (v : Word) : (s.memWrite a v).running = s.running := rfl
@[simp] theorem memWrite_fault (a : Nat) (v : Word) : (s.memWrite a v).fault = s.fault := rfl
@[simp] theorem memWrite_io (a : Nat) (v : Word) : (s.memWrite a v).io = s.io := rfl
@[simp] theorem memWrite_provider (a : Nat) (v : Word) : (s.memWrite a v).provider = s.provider := rfl

@[simp] theorem setStack_mem (st : List Word) : (s.setStack st).mem = s.mem := rfl
@[simp] theorem setStack_x (st : List Word) : (s.setStack st).x = s.x := rfl
@[simp] theorem setStack_stack (st : List Word) : (s.setStack st).stack = st := rfl
@[simp] theorem setStack_pc (st : List Word) : (s.setStack st).pc = s.pc := rfl
@[simp] theorem setStack_running (st : List Word) : (s.setStack st).running = s.running := rfl
@[simp] theorem setStack_fault (st : List Word) : (s.setStack st).fault = s.fault := rfl
@[simp] theorem setStack_io (st : List Word) : (s.setStack st).io = s.io := rfl
@[simp] theorem setStack_provider (st : List Word) : (s.setStack st).provider = s.provider := rfl

@[simp] theorem setRunning_mem (b : Bool) : (s.setRunning b).mem = s.mem := rfl
@[simp] theorem setRunning_x (b : Bool) : (s.setRunning b).x = s.x := rfl
@[simp] theorem setRunning_stack (b : Bool) : (s.setRunning b).stack = s.stack := rfl
@[simp] theorem setRunning_pc (b : Bool) : (s.setRunning b).pc = s.pc := rfl
@[simp] theorem setRunning_running (b : Bool) : (s.setRunning b).running = b := rfl
@[simp] theorem setRunning_fault (b : Bool) : (s.setRunning b).fault = s.fault := rfl
@[simp] theorem setRunning_io (b : Bool) : (s.setRunning b).io = s.io := rfl
@[simp] theorem setRunning_provider (b : Bool) : (s.setRunning b).provider = s.provider := rfl

@[simp] theorem setFault_mem (f : Option FaultRecord) : (s.setFault f).mem = s.mem := rfl
@[simp] theorem setFault_x (f : Option FaultRecord) : (s.setFault f).x = s.x := rfl
@[simp] theorem setFault_stack (f : Option FaultRecord) : (s.setFault f).stack = s.stack := rfl
@[simp] theorem setFault_pc (f : Option FaultRecord) : (s.setFault f).pc = s.pc := rfl
@[simp] theorem setFault_running (f : Option FaultRecord) : (s.setFault f).running = s.running := rfl
@[simp] theorem setFault_fault (f : Option FaultRecord) : (s.setFault f).fault = f := rfl
@[simp] theorem setFault_io (f : Option FaultRecord) : (s.setFault f).io = s.io := rfl
@[simp] theorem setFault_provider (f : Option FaultRecord) : (s.setFault f).provider = s.provider := rfl

@[simp] theorem emit_mem (e : IoEvent) : (s.emit e).mem = s.mem := rfl
@[simp] theorem emit_x (e : IoEvent) : (s.emit e).x = s.x := rfl
@[simp] theorem emit_stack (e : IoEvent) : (s.emit e).stack = s.stack := rfl
@[simp] theorem emit_pc (e : IoEvent) : (s.emit e).pc = s.pc := rfl
@[simp] theorem emit_running (e : IoEvent) : (s.emit e).running = s.running := rfl
@[simp] theorem emit_fault (e : IoEvent) : (s.emit e).fault = s.fault := rfl
@[simp] theorem emit_io (e : IoEvent) : (s.emit e).io = s.io ++ [e] := rfl
@[simp] theorem emit_provider (e : IoEvent) : (s.emit e).provider = s.provider := rfl

@[simp] theorem setProvider_mem (p : Provider) : (s.setProvider p).mem = s.mem := rfl
@[simp] theorem setProvider_x (p : Provider) : (s.setProvider p).x = s.x := rfl
@[simp] theorem setProvider_stack (p : Provider) : (s.setProvider p).stack = s.stack := rfl
@[simp] theorem setProvider_pc (p : Provider) : (s.setProvider p).pc = s.pc := rfl
@[simp] theorem setProvider_running (p : Provider) : (s.setProvider p).running = s.running := rfl
@[simp] theorem setProvider_fault (p : Provider) : (s.setProvider p).fault = s.fault := rfl
@[simp] theorem setProvider_io (p : Provider) : (s.setProvider p).io = s.io := rfl
@[simp] theorem setProvider_provider (p : Provider) : (s.setProvider p).provider = p := rfl

@[simp] theorem raise_mem (k : FaultKind) (v : Word) (c : DecodeContext) : (raise k v c s).mem = s.mem := rfl
@[simp] theorem raise_x (k : FaultKind) (v : Word) (c : DecodeContext) : (raise k v c s).x = s.x := rfl
@[simp] theorem raise_stack (k : FaultKind) (v : Word) (c : DecodeContext) : (raise k v c s).stack = s.stack := rfl
@[simp] theorem raise_pc (k : FaultKind) (v : Word) (c : DecodeContext) : (raise k v c s).pc = s.pc := rfl
@[simp] theorem raise_running (k : FaultKind) (v : Word) (c : DecodeContext) : (raise k v c s).running = false := rfl
@[simp] theorem raise_fault (k : FaultKind) (v : Word) (c : DecodeContext) : (raise k v c s).fault = some (faultRecord k v c s) := rfl
@[simp] theorem raise_io (k : FaultKind) (v : Word) (c : DecodeContext) : (raise k v c s).io = s.io := rfl
@[simp] theorem raise_provider (k : FaultKind) (v : Word) (c : DecodeContext) : (raise k v c s).provider = s.provider := rfl

@[simp] theorem stopped_mem (r : FaultRecord) : (s.stopped r).mem = s.mem := rfl
@[simp] theorem stopped_x (r : FaultRecord) : (s.stopped r).x = s.x := rfl
@[simp] theorem stopped_stack (r : FaultRecord) : (s.stopped r).stack = s.stack := rfl
@[simp] theorem stopped_pc (r : FaultRecord) : (s.stopped r).pc = r.pc := rfl
@[simp] theorem stopped_running (r : FaultRecord) : (s.stopped r).running = false := rfl
@[simp] theorem stopped_fault (r : FaultRecord) : (s.stopped r).fault = some r := rfl
@[simp] theorem stopped_io (r : FaultRecord) : (s.stopped r).io = s.io := rfl
@[simp] theorem stopped_provider (r : FaultRecord) : (s.stopped r).provider = s.provider := rfl

@[simp] theorem getReg_setPc (r : RegNo) (v : Word) : (s.setPc v).getReg r = s.getReg r := rfl
@[simp] theorem getReg_advance (r : RegNo) (n : Nat) : (s.advance n).getReg r = s.getReg r := rfl
@[simp] theorem getReg_memWrite (r : RegNo) (a : Nat) (v : Word) : (s.memWrite a v).getReg r = s.getReg r := rfl
@[simp] theorem getReg_setStack (r : RegNo) (st : List Word) : (s.setStack st).getReg r = s.getReg r := rfl
@[simp] theorem getReg_setRunning (r : RegNo) (b : Bool) : (s.setRunning b).getReg r = s.getReg r := rfl
@[simp] theorem getReg_setFault (r : RegNo) (f : Option FaultRecord) : (s.setFault f).getReg r = s.getReg r := rfl
@[simp] theorem getReg_emit (r : RegNo) (e : IoEvent) : (s.emit e).getReg r = s.getReg r := rfl
@[simp] theorem getReg_setProvider (r : RegNo) (p : Provider) : (s.setProvider p).getReg r = s.getReg r := rfl
@[simp] theorem getReg_stopped (q : RegNo) (r : FaultRecord) : (s.stopped r).getReg q = s.getReg q := rfl

theorem memRead_eq (a : Nat) : s.memRead a = s.mem.read a := rfl

theorem getReg_eq (r : RegNo) : s.getReg r = s.x[r] := rfl

@[simp] theorem getReg_setReg_same (r : RegNo) (v : Word) : (s.setReg r v).getReg r = v := by
  simp [State.getReg, State.setReg]

theorem getReg_setReg_other {r q : RegNo} (h : q ≠ r) (v : Word) : (s.setReg r v).getReg q = s.getReg q := by
  have h' : (r : Nat) ≠ q := fun e => h (Fin.ext e.symm)
  simp [State.getReg, State.setReg, h']

theorem getReg_setReg (r q : RegNo) (v : Word) :
    (s.setReg r v).getReg q = if q = r then v else s.getReg q := by
  split
  · next h => rw [h, getReg_setReg_same]
  · next h => exact getReg_setReg_other s h v

/-- Two advances are one. -/
theorem advance_advance (m n : Nat) : (s.advance m).advance n = s.advance (m + n) := by
  simp [State.advance, State.setPc, BitVec.add_assoc, BitVec.ofNat_add]

@[simp] theorem advance_zero : s.advance 0 = s := by
  simp [State.advance, State.setPc]

/-- A fault is entered by stopping with its record (R131). -/
theorem raise_eq_stopped (k : FaultKind) (v : Word) (c : DecodeContext) :
    raise k v c s = s.stopped (faultRecord k v c s) := rfl

/-- Moving `pc` before a stop does not show. -/
theorem stopped_setPc (r : FaultRecord) (v : Word) : (s.setPc v).stopped r = s.stopped r := rfl

end Sys2Proof.Machine
end

