-- ==== Sys2Proof/Laws/Ranges.lean ====
section
/-! SUPPORT. The range checks and the instruction pointer's arithmetic: inside memory `pc` never overflows (R18). -/
namespace Sys2Proof.Machine

theorem validIndex_iff (v : Word) : validIndex v = true ↔ 0 ≤ v.toInt ∧ v.toInt < Config.memCap := by
  simp [validIndex]

theorem validReg_iff (v : Word) : validReg v = true ↔ 0 ≤ v.toInt ∧ v.toInt < Config.numRegs := by
  simp [validReg]

/-- On words, a valid index is one below `MEMCAP` read as unsigned. -/
theorem validIndex_iff_toNat (v : Word) : validIndex v = true ↔ v.toNat < Config.memCap := by
  rw [validIndex_iff, Config.memCap, BitVec.toInt_eq_toNat_cond]
  have := v.isLt
  split <;> omega

theorem validReg_iff_toNat (v : Word) : validReg v = true ↔ v.toNat < 8 := by
  rw [validReg_iff, Config.numRegs, BitVec.toInt_eq_toNat_cond]
  have := v.isLt
  split <;> omega

theorem cellNo_lt {v : Word} (h : validIndex v = true) : cellNo v < Config.memCap :=
  (validIndex_iff_toNat v).mp h

/-- The fetch of a cell moves `pc` on by one as an integer (R18, R69). -/
theorem toInt_succ {v : Word} (h : validIndex v = true) : (v + 1).toInt = v.toInt + 1 := by
  have h' := (validIndex_iff_toNat v).mp h
  rw [Config.memCap] at h'
  have h1 : (v + 1).toNat = v.toNat + 1 := by
    rw [BitVec.toNat_add]
    simp
    omega
  rw [BitVec.toInt_eq_toNat_cond, BitVec.toInt_eq_toNat_cond, h1]
  split <;> split <;> omega

/-- The cells from `pc` on can be fetched one by one. -/
theorem canFetch_succ {n : Nat} {s : State} (h : CanFetch (n + 1) s) :
    validIndex s.pc = true ∧ CanFetch n (s.advance 1) := by
  obtain ⟨h0, hn⟩ := h
  have hv : validIndex s.pc = true := (validIndex_iff _).mpr ⟨h0, by omega⟩
  refine ⟨hv, ?_⟩
  have hs : (s.advance 1).pc.toInt = s.pc.toInt + 1 := toInt_succ hv
  exact ⟨by omega, by omega⟩

/-- Past `n` cells that can be fetched, `pc` has moved on by `n` as an integer. -/
theorem canFetch_advance {n : Nat} {s : State} (h : CanFetch n s) : (s.advance n).pc.toInt = s.pc.toInt + n := by
  induction n generalizing s with
  | zero => simp
  | succ n ih =>
    obtain ⟨hv, hr⟩ := canFetch_succ h
    have hn := ih hr
    have h1 : (s.advance 1).pc.toInt = s.pc.toInt + 1 := toInt_succ hv
    rw [advance_advance, Nat.add_comm] at hn
    rw [hn, h1]
    push_cast
    omega

end Sys2Proof.Machine
end

