-- ==== Sys2Proof/Laws/Operands.lean ====
section
/-! SUPPORT. What the shared operations can do: fetch, operand fetch, push, pop and the provider, each said once. -/
namespace Sys2Proof.Machine

theorem consume_ok {c : DecodeContext} {s : State} {k : State → Out} (h : validIndex s.pc = true) :
    consume c s k = k (s.advance 1) := by simp [consume, h]

theorem consume_bad {c : DecodeContext} {s : State} {k : State → Out} (h : validIndex s.pc = false) :
    consume c s k = .next (raise .outOfBounds s.pc c s) := by simp [consume, h]

/-- All the operand fetches can do: stop with the record of the first failing check, or pass to the instruction's own
transition with `pc` past the last operand. -/
theorem fetchOperands_eq (op : Word) (ops : List (OperandKind × Word)) (before : List Word) (s : State)
    (k : State → Out) :
    fetchOperands ops ⟨some op, before⟩ s k =
      match operandFault op s.pc before ops with
      | some r => .next (s.stopped r)
      | none => k (s.advance ops.length) := by
  induction ops generalizing before s with
  | nil => simp [fetchOperands, operandFault]
  | cons o rest ih =>
    obtain ⟨kind, v⟩ := o
    simp only [fetchOperands, fetchOperand, operandFault]
    by_cases h : validIndex s.pc = true
    · rw [consume_ok h]
      have hpc : (s.advance 1).pc = s.pc + 1 := rfl
      have step : ∀ b, fetchOperands rest (⟨some op, b⟩ : DecodeContext) (s.advance 1) k =
          match operandFault op (s.pc + 1) b rest with
          | some r => .next (s.stopped r)
          | none => k (s.advance ((rest.length) + 1)) := by
        intro b
        rw [ih b (s.advance 1), hpc, advance_advance, Nat.add_comm 1]
        rfl
      cases kind
      · by_cases hr : validReg v = true
        · simpa [operandCheck, h, hr, DecodeContext.add] using step _
        · simp [operandCheck, h, hr, raise_eq_stopped, faultRecord, DecodeContext.add]
          rfl
      · by_cases hr : validIndex v = true
        · simpa [operandCheck, h, hr, DecodeContext.add] using step _
        · simp [operandCheck, h, hr, raise_eq_stopped, faultRecord, DecodeContext.add]
          rfl
      · simpa [operandCheck, h, DecodeContext.add] using step _
      · simpa [operandCheck, h, DecodeContext.add] using step _
    · have h' : validIndex s.pc = false := by simpa using h
      rw [consume_bad h']
      simp [h', raise_eq_stopped, faultRecord]

/-- The same for the operands of an opcode (R76). -/
theorem operandsOf_eq (m : Opcode) (ops : List (OperandKind × Word)) (s : State) (k : State → Out) :
    operandsOf m ops s k =
      match operandFault (Config.opc m) s.pc [] ops with
      | some r => .next (s.stopped r)
      | none => k (s.advance ops.length) := fetchOperands_eq _ ops [] s k

/-- Where every cell is in memory and every range check passes, no operand faults. -/
theorem operandFault_none {op : Word} {ops : List (OperandKind × Word)} {before : List Word} {s : State}
    (hroom : CanFetch ops.length s) (hok : ∀ o ∈ ops, operandCheck o.1 o.2 = none) :
    operandFault op s.pc before ops = none := by
  induction ops generalizing before s with
  | nil => rfl
  | cons o rest ih =>
    obtain ⟨kind, v⟩ := o
    obtain ⟨hv, hrest⟩ := canFetch_succ hroom
    have hc := hok (kind, v) (by simp)
    have := ih (before := before ++ [v]) hrest (fun o ho => hok o (by simp [ho]))
    have hpc : (s.advance 1).pc = s.pc + 1 := rfl
    rw [hpc] at this
    cases kind <;> simp_all [operandFault, operandCheck]

theorem pushWithin_none (v : Word) (s : State) (k : State → Out) :
    pushWithin none v s k = k (s.setStack (s.stack ++ [v])) := rfl

theorem pop_empty {s : State} (h : s.stack = []) : pop s = none := by simp [pop, h]

theorem pop_top {s : State} {st : List Word} {v : Word} (h : s.stack = st ++ [v]) :
    pop s = some (v, s.setStack st) := by simp [pop, h]

/-- The provider answers exactly when it has an answer left (R84). -/
theorem answer_isSome (p : Provider) (port : Word) : (p.answer port).isSome = p.hasAnswer := by
  rcases p with n | (_ | ⟨v, vs⟩) <;> rfl

end Sys2Proof.Machine
end

