-- ==== Sys2Proof/Laws/PerInstr.lean ====
section
/-! SUPPORT. The layout of every instruction, one lemma per constructor: its opcode cell, its length (R54), and that it is
well formed exactly when each operand passes the range check of its kind (R53, R56). -/

/-- What the encoding tables say of an instruction (R52 to R56). -/
def Sys2Proof.Laws.Layout.Statement (i : Sys2Proof.Instr) : Prop :=
  (Sys2Proof.encode i).head? = some (Sys2Proof.Config.opc i.opcode) ∧
  (Sys2Proof.encode i).length = i.opcode.operandKinds.length + 1 ∧
  (Sys2Proof.WellFormed i = true ↔
    ∀ o ∈ i.opcode.operandKinds.zip i.operands, Sys2Proof.Machine.operandCheck o.1 o.2 = none)

theorem Sys2Proof.Laws.Layout.load (reg addr : Sys2Proof.Word) : Sys2Proof.Laws.Layout.Statement (.load reg addr) := by
  refine ⟨rfl, rfl, ?_⟩
  simp [Sys2Proof.WellFormed, Sys2Proof.Instr.opcode, Sys2Proof.Instr.operands, Sys2Proof.Opcode.operandKinds,
    Sys2Proof.Machine.operandCheck]

theorem Sys2Proof.Laws.Layout.store (reg addr : Sys2Proof.Word) : Sys2Proof.Laws.Layout.Statement (.store reg addr) := by
  refine ⟨rfl, rfl, ?_⟩
  simp [Sys2Proof.WellFormed, Sys2Proof.Instr.opcode, Sys2Proof.Instr.operands, Sys2Proof.Opcode.operandKinds,
    Sys2Proof.Machine.operandCheck]

theorem Sys2Proof.Laws.Layout.mov (regDst regSrc : Sys2Proof.Word) : Sys2Proof.Laws.Layout.Statement (.mov regDst regSrc) := by
  refine ⟨rfl, rfl, ?_⟩
  simp [Sys2Proof.WellFormed, Sys2Proof.Instr.opcode, Sys2Proof.Instr.operands, Sys2Proof.Opcode.operandKinds,
    Sys2Proof.Machine.operandCheck]

theorem Sys2Proof.Laws.Layout.push (reg : Sys2Proof.Word) : Sys2Proof.Laws.Layout.Statement (.push reg) := by
  refine ⟨rfl, rfl, ?_⟩
  simp [Sys2Proof.WellFormed, Sys2Proof.Instr.opcode, Sys2Proof.Instr.operands, Sys2Proof.Opcode.operandKinds,
    Sys2Proof.Machine.operandCheck]

theorem Sys2Proof.Laws.Layout.pop (reg : Sys2Proof.Word) : Sys2Proof.Laws.Layout.Statement (.pop reg) := by
  refine ⟨rfl, rfl, ?_⟩
  simp [Sys2Proof.WellFormed, Sys2Proof.Instr.opcode, Sys2Proof.Instr.operands, Sys2Proof.Opcode.operandKinds,
    Sys2Proof.Machine.operandCheck]

theorem Sys2Proof.Laws.Layout.add (reg1 reg2 : Sys2Proof.Word) : Sys2Proof.Laws.Layout.Statement (.add reg1 reg2) := by
  refine ⟨rfl, rfl, ?_⟩
  simp [Sys2Proof.WellFormed, Sys2Proof.Instr.opcode, Sys2Proof.Instr.operands, Sys2Proof.Opcode.operandKinds,
    Sys2Proof.Machine.operandCheck]

theorem Sys2Proof.Laws.Layout.sub (reg1 reg2 : Sys2Proof.Word) : Sys2Proof.Laws.Layout.Statement (.sub reg1 reg2) := by
  refine ⟨rfl, rfl, ?_⟩
  simp [Sys2Proof.WellFormed, Sys2Proof.Instr.opcode, Sys2Proof.Instr.operands, Sys2Proof.Opcode.operandKinds,
    Sys2Proof.Machine.operandCheck]

theorem Sys2Proof.Laws.Layout.mul (reg1 reg2 : Sys2Proof.Word) : Sys2Proof.Laws.Layout.Statement (.mul reg1 reg2) := by
  refine ⟨rfl, rfl, ?_⟩
  simp [Sys2Proof.WellFormed, Sys2Proof.Instr.opcode, Sys2Proof.Instr.operands, Sys2Proof.Opcode.operandKinds,
    Sys2Proof.Machine.operandCheck]

theorem Sys2Proof.Laws.Layout.div (reg1 reg2 : Sys2Proof.Word) : Sys2Proof.Laws.Layout.Statement (.div reg1 reg2) := by
  refine ⟨rfl, rfl, ?_⟩
  simp [Sys2Proof.WellFormed, Sys2Proof.Instr.opcode, Sys2Proof.Instr.operands, Sys2Proof.Opcode.operandKinds,
    Sys2Proof.Machine.operandCheck]

theorem Sys2Proof.Laws.Layout.inc (reg : Sys2Proof.Word) : Sys2Proof.Laws.Layout.Statement (.inc reg) := by
  refine ⟨rfl, rfl, ?_⟩
  simp [Sys2Proof.WellFormed, Sys2Proof.Instr.opcode, Sys2Proof.Instr.operands, Sys2Proof.Opcode.operandKinds,
    Sys2Proof.Machine.operandCheck]

theorem Sys2Proof.Laws.Layout.dec (reg : Sys2Proof.Word) : Sys2Proof.Laws.Layout.Statement (.dec reg) := by
  refine ⟨rfl, rfl, ?_⟩
  simp [Sys2Proof.WellFormed, Sys2Proof.Instr.opcode, Sys2Proof.Instr.operands, Sys2Proof.Opcode.operandKinds,
    Sys2Proof.Machine.operandCheck]

theorem Sys2Proof.Laws.Layout.jmp (addr : Sys2Proof.Word) : Sys2Proof.Laws.Layout.Statement (.jmp addr) := by
  refine ⟨rfl, rfl, ?_⟩
  simp [Sys2Proof.WellFormed, Sys2Proof.Instr.opcode, Sys2Proof.Instr.operands, Sys2Proof.Opcode.operandKinds,
    Sys2Proof.Machine.operandCheck]

theorem Sys2Proof.Laws.Layout.jz (addr : Sys2Proof.Word) : Sys2Proof.Laws.Layout.Statement (.jz addr) := by
  refine ⟨rfl, rfl, ?_⟩
  simp [Sys2Proof.WellFormed, Sys2Proof.Instr.opcode, Sys2Proof.Instr.operands, Sys2Proof.Opcode.operandKinds,
    Sys2Proof.Machine.operandCheck]

theorem Sys2Proof.Laws.Layout.jnz (addr : Sys2Proof.Word) : Sys2Proof.Laws.Layout.Statement (.jnz addr) := by
  refine ⟨rfl, rfl, ?_⟩
  simp [Sys2Proof.WellFormed, Sys2Proof.Instr.opcode, Sys2Proof.Instr.operands, Sys2Proof.Opcode.operandKinds,
    Sys2Proof.Machine.operandCheck]

theorem Sys2Proof.Laws.Layout.call (addr : Sys2Proof.Word) : Sys2Proof.Laws.Layout.Statement (.call addr) := by
  refine ⟨rfl, rfl, ?_⟩
  simp [Sys2Proof.WellFormed, Sys2Proof.Instr.opcode, Sys2Proof.Instr.operands, Sys2Proof.Opcode.operandKinds,
    Sys2Proof.Machine.operandCheck]

theorem Sys2Proof.Laws.Layout.ret : Sys2Proof.Laws.Layout.Statement .ret := by
  refine ⟨rfl, rfl, ?_⟩
  simp [Sys2Proof.WellFormed, Sys2Proof.Instr.opcode, Sys2Proof.Instr.operands, Sys2Proof.Opcode.operandKinds,
    Sys2Proof.Machine.operandCheck]

theorem Sys2Proof.Laws.Layout.cmp (reg1 reg2 : Sys2Proof.Word) : Sys2Proof.Laws.Layout.Statement (.cmp reg1 reg2) := by
  refine ⟨rfl, rfl, ?_⟩
  simp [Sys2Proof.WellFormed, Sys2Proof.Instr.opcode, Sys2Proof.Instr.operands, Sys2Proof.Opcode.operandKinds,
    Sys2Proof.Machine.operandCheck]

theorem Sys2Proof.Laws.Layout.and (reg1 reg2 : Sys2Proof.Word) : Sys2Proof.Laws.Layout.Statement (.and reg1 reg2) := by
  refine ⟨rfl, rfl, ?_⟩
  simp [Sys2Proof.WellFormed, Sys2Proof.Instr.opcode, Sys2Proof.Instr.operands, Sys2Proof.Opcode.operandKinds,
    Sys2Proof.Machine.operandCheck]

theorem Sys2Proof.Laws.Layout.or (reg1 reg2 : Sys2Proof.Word) : Sys2Proof.Laws.Layout.Statement (.or reg1 reg2) := by
  refine ⟨rfl, rfl, ?_⟩
  simp [Sys2Proof.WellFormed, Sys2Proof.Instr.opcode, Sys2Proof.Instr.operands, Sys2Proof.Opcode.operandKinds,
    Sys2Proof.Machine.operandCheck]

theorem Sys2Proof.Laws.Layout.xor (reg1 reg2 : Sys2Proof.Word) : Sys2Proof.Laws.Layout.Statement (.xor reg1 reg2) := by
  refine ⟨rfl, rfl, ?_⟩
  simp [Sys2Proof.WellFormed, Sys2Proof.Instr.opcode, Sys2Proof.Instr.operands, Sys2Proof.Opcode.operandKinds,
    Sys2Proof.Machine.operandCheck]

theorem Sys2Proof.Laws.Layout.not (reg : Sys2Proof.Word) : Sys2Proof.Laws.Layout.Statement (.not reg) := by
  refine ⟨rfl, rfl, ?_⟩
  simp [Sys2Proof.WellFormed, Sys2Proof.Instr.opcode, Sys2Proof.Instr.operands, Sys2Proof.Opcode.operandKinds,
    Sys2Proof.Machine.operandCheck]

theorem Sys2Proof.Laws.Layout.int (code : Sys2Proof.Word) : Sys2Proof.Laws.Layout.Statement (.int code) := by
  refine ⟨rfl, rfl, ?_⟩
  simp [Sys2Proof.WellFormed, Sys2Proof.Instr.opcode, Sys2Proof.Instr.operands, Sys2Proof.Opcode.operandKinds,
    Sys2Proof.Machine.operandCheck]

theorem Sys2Proof.Laws.Layout.hlt : Sys2Proof.Laws.Layout.Statement .hlt := by
  refine ⟨rfl, rfl, ?_⟩
  simp [Sys2Proof.WellFormed, Sys2Proof.Instr.opcode, Sys2Proof.Instr.operands, Sys2Proof.Opcode.operandKinds,
    Sys2Proof.Machine.operandCheck]

theorem Sys2Proof.Laws.Layout.nop : Sys2Proof.Laws.Layout.Statement .nop := by
  refine ⟨rfl, rfl, ?_⟩
  simp [Sys2Proof.WellFormed, Sys2Proof.Instr.opcode, Sys2Proof.Instr.operands, Sys2Proof.Opcode.operandKinds,
    Sys2Proof.Machine.operandCheck]

theorem Sys2Proof.Laws.Layout.inp (reg port : Sys2Proof.Word) : Sys2Proof.Laws.Layout.Statement (.inp reg port) := by
  refine ⟨rfl, rfl, ?_⟩
  simp [Sys2Proof.WellFormed, Sys2Proof.Instr.opcode, Sys2Proof.Instr.operands, Sys2Proof.Opcode.operandKinds,
    Sys2Proof.Machine.operandCheck]

theorem Sys2Proof.Laws.Layout.out (port reg : Sys2Proof.Word) : Sys2Proof.Laws.Layout.Statement (.out port reg) := by
  refine ⟨rfl, rfl, ?_⟩
  simp [Sys2Proof.WellFormed, Sys2Proof.Instr.opcode, Sys2Proof.Instr.operands, Sys2Proof.Opcode.operandKinds,
    Sys2Proof.Machine.operandCheck]
end

