-- ==== Sys2Proof/Laws/Step.lean ====
section
/-! SUPPORT. All a run-loop iteration can do, said once. -/
namespace Sys2Proof.Machine

/-- The four ways of a cycle: no step (R83), a failing opcode fetch (R70), a decoded instruction (R76), an unknown opcode (R77). -/
theorem cycle_cases (lenient : Bool) (s : State) :
    (s.running = false ∧ cycle lenient s = .fault .notRunning) ∨
    (s.running = true ∧ validIndex s.pc = false ∧
      cycle lenient s = .next (raise .outOfBounds s.pc .fresh s)) ∨
    (s.running = true ∧ validIndex s.pc = true ∧
      ∃ i, decodedAt s = .ok i ∧ cycle lenient s = exec i (s.advance 1)) ∨
    (s.running = true ∧ validIndex s.pc = true ∧
      ∃ e, decodedAt s = .error e ∧
        cycle lenient s = unknownOpcode lenient (s.memRead (cellNo s.pc)) (s.advance 1)) := by
  by_cases hr : s.running = true
  · by_cases hv : validIndex s.pc = true
    · cases hd : decodedAt s with
      | ok i => exact .inr (.inr (.inl ⟨hr, hv, i, rfl, by simp [cycle, hr, fetch, consume_ok hv, hd]⟩))
      | error e => exact .inr (.inr (.inr ⟨hr, hv, e, rfl, by simp [cycle, hr, fetch, consume_ok hv, hd]⟩))
    · have hv' : validIndex s.pc = false := by simpa using hv
      exact .inr (.inl ⟨hr, hv', by simp [cycle, hr, fetch, consume_bad hv']⟩)
  · have hr' : s.running = false := by simpa using hr
    exact .inl ⟨hr', by simp [cycle, hr']⟩

theorem step_eq_cycle (s : State) : step s = cycle Config.lenientUnknownOpcode s := rfl

end Sys2Proof.Machine
end

