-- ==== Sys2Proof/Tests/Slice0.lean ====
section
/-! SUPPORT. Tests of the model: decoding, one step on small states with results from spec/95_test_vectors.md, and states that meet
the hypotheses of the statements. -/
namespace Sys2Proof.Tests

open Sys2Proof Sys2Proof.Machine

/-! Helpers -/

/-- The reset state with the instruction's cells at `p`, `pc = p`, some registers set and a stack. -/
def start (p : Nat) (cells : List Word) (regs : List (RegNo × Word)) (stack : List Word) : State :=
  let s := placeCells p cells State.reset
  let s := regs.foldl (fun s r => s.setReg r.1 r.2) s
  (s.setPc (BitVec.ofNat 32 p)).setStack stack

/-- What a next state shows of itself through `f`; nothing for a fault or a refusal. -/
def seen {α : Type} (f : State → α) : Out → Option α
  | .next t => some (f t)
  | .fault _ => none
  | .refused _ => none

/-- A register and the pointer after one step. -/
def stepReg (s : State) (r : RegNo) : Option (Word × Word) := seen (fun t => (t.getReg r, t.pc)) (step s)

/-- The stack and the pointer after one step. -/
def stepStack (s : State) : Option (List Word × Word) := seen (fun t => (t.stack, t.pc)) (step s)

/-- The status pair after one step. -/
def stepStatus (s : State) : Option (Bool × Option FaultRecord) := seen status (step s)

/-- The history and the pointer after one step. -/
def stepIo (s : State) : Option (List IoEvent × Word) := seen (fun t => (t.io, t.pc)) (step s)

/-- The decoder's reading of a list of cells, with the cells it leaves. -/
def reads (cells : List Word) : Option (Instr × List Word) :=
  match decode cells with
  | .ok r => some r
  | .error _ => none

/-! Well-formedness: an ill-formed term for each check (R56) -/

theorem test_wf_accepts : WellFormed (.load 7 65535) = true ∧ WellFormed (.out (-100) 0) = true := by decide
theorem test_wf_load : WellFormed (.load 8 0) = false ∧ WellFormed (.load 0 65536) = false := by decide
theorem test_wf_store : WellFormed (.store (-1) 0) = false ∧ WellFormed (.store 0 (-1)) = false := by decide
theorem test_wf_mov : WellFormed (.mov 8 0) = false ∧ WellFormed (.mov 0 8) = false := by decide
theorem test_wf_stack : WellFormed (.push 8) = false ∧ WellFormed (.pop 8) = false := by decide
theorem test_wf_add : WellFormed (.add 8 0) = false ∧ WellFormed (.add 0 8) = false := by decide
theorem test_wf_sub : WellFormed (.sub 8 0) = false ∧ WellFormed (.sub 0 8) = false := by decide
theorem test_wf_mul : WellFormed (.mul 8 0) = false ∧ WellFormed (.mul 0 8) = false := by decide
theorem test_wf_div : WellFormed (.div 8 0) = false ∧ WellFormed (.div 0 8) = false := by decide
theorem test_wf_inc_dec : WellFormed (.inc 8) = false ∧ WellFormed (.dec 8) = false := by decide
theorem test_wf_jumps : WellFormed (.jmp 65536) = false ∧ WellFormed (.jz 65536) = false ∧
    WellFormed (.jnz 65536) = false ∧ WellFormed (.call (-1)) = false := by decide
theorem test_wf_cmp : WellFormed (.cmp 8 0) = false ∧ WellFormed (.cmp 0 8) = false := by decide
theorem test_wf_and : WellFormed (.and 8 0) = false ∧ WellFormed (.and 0 8) = false := by decide
theorem test_wf_or : WellFormed (.or 8 0) = false ∧ WellFormed (.or 0 8) = false := by decide
theorem test_wf_xor : WellFormed (.xor 8 0) = false ∧ WellFormed (.xor 0 8) = false := by decide
theorem test_wf_not_io : WellFormed (.not 8) = false ∧ WellFormed (.inp 8 0) = false ∧ WellFormed (.out 0 8) = false := by
  decide

/-! Decoding: cells written out from R53 and R59 -/

theorem test_decode_load : reads [0, 0, 10, 7] = some (.load 0 10, [7]) := by decide
theorem test_decode_store : reads [1, 1, 101] = some (.store 1 101, []) := by decide
theorem test_decode_mov : reads [2, 2, 1] = some (.mov 2 1, []) := by decide
theorem test_decode_push : reads [3, 2, 2] = some (.push 2, [2]) := by decide
theorem test_decode_pop : reads [4, 2] = some (.pop 2, []) := by decide
theorem test_decode_add : reads [5, 5, 0] = some (.add 5 0, []) := by decide
theorem test_decode_sub : reads [6, 1, 2] = some (.sub 1 2, []) := by decide
theorem test_decode_mul : reads [7, 1, 2] = some (.mul 1 2, []) := by decide
theorem test_decode_div : reads [8, 1, 2] = some (.div 1 2, []) := by decide
theorem test_decode_inc : reads [9, 0] = some (.inc 0, []) := by decide
theorem test_decode_dec : reads [10, 2] = some (.dec 2, []) := by decide
theorem test_decode_jmp : reads [11, 11] = some (.jmp 11, []) := by decide
theorem test_decode_jz : reads [12, 3] = some (.jz 3, []) := by decide
theorem test_decode_jnz : reads [13, 40] = some (.jnz 40, []) := by decide
theorem test_decode_call : reads [14, 9] = some (.call 9, []) := by decide
theorem test_decode_ret : reads [15, 9] = some (.ret, [9]) := by decide
theorem test_decode_cmp : reads [16, 2, 3] = some (.cmp 2 3, []) := by decide
theorem test_decode_and : reads [17, 1, 2] = some (.and 1 2, []) := by decide
theorem test_decode_or : reads [18, 1, 2] = some (.or 1 2, []) := by decide
theorem test_decode_xor : reads [19, 3, 4] = some (.xor 3 4, []) := by decide
theorem test_decode_not : reads [20, 4] = some (.not 4, []) := by decide
theorem test_decode_int : reads [21, -1] = some (.int (-1), []) := by decide
theorem test_decode_hlt : reads [22, 99] = some (.hlt, [99]) := by decide
theorem test_decode_nop : reads [23] = some (.nop, []) := by decide
/-- IN has the register first. -/
theorem test_decode_in : reads [24, 1, 3] = some (.inp 1 3, []) := by decide
/-- OUT has the port first. -/
theorem test_decode_out : reads [25, -100, 2] = some (.out (-100) 2, []) := by decide
theorem test_decode_unknown : decode [26, 0, 0] = .error (.invalidOpcode 26) ∧ decode [-1] = .error (.invalidOpcode (-1)) := by
  constructor <;> rfl
theorem test_decode_short : decode [] = .error .noCell ∧ decode [5, 1] = .error (.missingOperand .add) := by
  constructor <;> rfl
/-- An operand of -1 has all 32 bits of its cell set. -/
theorem test_decode_table_word : decodeTableWord 96 (25 + 0xFFFFFF9C * 2 ^ 32 + 2 * 2 ^ 64) = some (.out (-100) 2) := by decide

/-! The host's placing of an instruction at the reset state -/

theorem test_place_load : step (State.reset.withFetchWord 32 0) = exec (.load 0 0) ((State.reset.withFetchWord 32 0).setPc 1) := by
  rfl
theorem test_place_hlt : seen (fun t => (t.running, t.pc)) (step (State.reset.withFetchWord 32 22)) = some (false, 1) := by decide
theorem test_place_inc : stepReg (State.reset.withFetchWord 64 (9 + 3 * 2 ^ 32)) 3 = some (1, 2) := by decide

/-! Reset (R33) -/

theorem test_reset : State.reset.getReg 7 = 0 ∧ State.reset.pc = 0 ∧ State.reset.running = true ∧ State.reset.stack = [] ∧
    State.reset.fault = none ∧ State.reset.io = [] ∧ State.reset.memRead 65535 = 0 := by decide

/-! Data movement -/

/-- V10 -/
theorem test_load : stepReg ((start 20 [0, 3, 100] [] []).memWrite 100 (-7)) 3 = some (-7, 23) := by decide
/-- V15: the first failing check is reported, the second operand is not fetched. -/
theorem test_load_bad_register : stepStatus (start 20 [0, 9, 70000] [] []) =
    some (false, some ⟨.invalidRegister, some 0, 22, [9], 9⟩) := by decide
/-- V17 -/
theorem test_store : seen (fun t => (t.memRead 0, t.getReg 2, t.pc)) (step (start 20 [1, 2, 0] [(2, -2147483648)] [])) =
    some (-2147483648, -2147483648, 23) := by decide
/-- V13, for STORE: nothing is stored. -/
theorem test_store_bad_address : seen (fun t => (t.mem, t.fault)) (step (start 0 [1, 2, 65536] [(2, 5)] [])) =
    some ((start 0 [1, 2, 65536] [] []).mem, some ⟨.outOfBounds, some 1, 3, [2, 65536], 65536⟩) := by decide
/-- V18 -/
theorem test_mov : stepReg (start 20 [2, 4, 1] [(1, 99)] []) 4 = some (99, 23) := by decide
/-- V20 -/
theorem test_mov_bad_source : stepStatus (start 20 [2, 1, 8] [] []) =
    some (false, some ⟨.invalidRegister, some 2, 23, [1, 8], 8⟩) := by decide

/-! Stack -/

/-- V30 -/
theorem test_push : stepStack (start 20 [3, 6] [(6, 42)] [7]) = some ([7, 42], 22) := by decide
/-- V31 -/
theorem test_pop : seen (fun t => (t.getReg 1, t.stack)) (step (start 20 [4, 1] [] [7, 42])) = some (42, [7]) := by decide
/-- V32 -/
theorem test_pop_empty : seen (fun t => (t.getReg 1, t.stack, t.pc, t.running)) (step (start 20 [4, 1] [(1, 13)] [])) =
    some (13, [], 22, true) := by decide

/-! Arithmetic -/

/-- V41 -/
theorem test_add_wraps : stepReg (start 20 [5, 1, 2] [(1, 2147483647), (2, 1)] []) 1 = some (-2147483648, 23) := by decide
/-- V43 -/
theorem test_add_same : stepReg (start 20 [5, 1, 1] [(1, 1073741824)] []) 1 = some (-2147483648, 23) := by decide
/-- V44 -/
theorem test_sub : stepReg (start 20 [6, 1, 2] [(1, 3), (2, 10)] []) 1 = some (-7, 23) := by decide
/-- V46 -/
theorem test_sub_wraps : stepReg (start 20 [6, 1, 2] [(2, -2147483648)] []) 1 = some (-2147483648, 23) := by decide
/-- V48 -/
theorem test_mul : stepReg (start 20 [7, 1, 2] [(1, -6), (2, 7)] []) 1 = some (-42, 23) := by decide
/-- V50 -/
theorem test_mul_wraps : stepReg (start 20 [7, 1, 2] [(1, 46341), (2, 46341)] []) 1 = some (-2147479015, 23) := by decide
/-- V53 and V54 -/
theorem test_div_truncates : stepReg (start 20 [8, 1, 2] [(1, -7), (2, 2)] []) 1 = some (-3, 23) ∧
    stepReg (start 20 [8, 1, 2] [(1, 7), (2, -2)] []) 1 = some (-3, 23) := by decide
/-- V57 and V58 -/
theorem test_div_corners : stepReg (start 20 [8, 1, 2] [(1, 17)] []) 1 = some (17, 23) ∧
    stepReg (start 20 [8, 1, 2] [(1, -2147483648), (2, -1)] []) 1 = some (-2147483648, 23) := by decide
/-- V61 -/
theorem test_inc_wraps : stepReg (start 20 [9, 1] [(1, 2147483647)] []) 1 = some (-2147483648, 22) := by decide
/-- V66 -/
theorem test_inc_bad_register : stepStatus (start 20 [9, 8] [] []) =
    some (false, some ⟨.invalidRegister, some 9, 22, [8], 8⟩) := by decide
/-- V63 -/
theorem test_dec_wraps : stepReg (start 20 [10, 1] [(1, -2147483648)] []) 1 = some (2147483647, 22) := by decide
/-- V64 -/
theorem test_dec : stepReg (start 20 [10, 1] [] []) 1 = some (-1, 22) := by decide

/-! Control transfer -/

/-- V70 -/
theorem test_jmp : seen State.pc (step (start 0 [11, 11] [] [])) = some 11 := by decide
/-- V71 -/
theorem test_jmp_bad_address : seen (fun t => (t.pc, t.fault)) (step (start 0 [11, 65536] [] [])) =
    some (2, some ⟨.outOfBounds, some 11, 2, [65536], 65536⟩) := by decide
/-- V72 and V73 -/
theorem test_jz : seen State.pc (step (start 0 [12, 40] [] [])) = some 40 ∧
    seen State.pc (step (start 20 [12, 40] [(0, -1)] [])) = some 22 := by decide
/-- V76: the target is checked although the branch is not taken. -/
theorem test_jz_checked : stepStatus (start 2 [12, 70000] [(0, 1)] []) =
    some (false, some ⟨.outOfBounds, some 12, 4, [70000], 70000⟩) := by decide
/-- V74 and V75 -/
theorem test_jnz : seen State.pc (step (start 20 [13, 40] [(0, -1)] [])) = some 40 ∧
    seen State.pc (step (start 20 [13, 40] [] [])) = some 22 := by decide
/-- V77 -/
theorem test_call : stepStack (start 3 [14, 9] [] []) = some ([5], 9) := by decide
/-- V82 -/
theorem test_call_bad_address : seen (fun t => (t.stack, t.fault)) (step (start 0 [14, -1] [] [])) =
    some ([], some ⟨.outOfBounds, some 14, 2, [-1], -1⟩) := by decide
/-- V78 and V79 -/
theorem test_ret : stepStack (start 19 [15] [] [5]) = some ([], 5) ∧ stepStack (start 19 [15] [] []) = some ([], 20) := by decide
/-- V80: RET takes any value; the next step faults. -/
theorem test_ret_unchecked : stepStack (start 5 [15] [] [-5]) = some ([], -5) ∧
    stepStatus (State.reset.setPc (-5)) = some (false, some ⟨.outOfBounds, none, -5, [], -5⟩) := by decide

/-! Comparison and bitwise -/

/-- V90 and V91 -/
theorem test_cmp : stepReg (start 20 [16, 2, 3] [(2, -5), (3, -5), (0, 77)] []) 0 = some (1, 23) ∧
    stepReg (start 20 [16, 2, 3] [(2, 5), (3, -5)] []) 0 = some (0, 23) := by decide
/-- V93 -/
theorem test_cmp_register_zero : stepReg (start 20 [16, 0, 1] [(0, 9), (1, 9)] []) 0 = some (1, 23) := by decide
/-- V96 -/
theorem test_and : stepReg (start 20 [17, 1, 2] [(1, -4), (2, 6)] []) 1 = some (4, 23) := by decide
/-- V99 -/
theorem test_or : stepReg (start 20 [18, 1, 2] [(1, -4), (2, 6)] []) 1 = some (-2, 23) := by decide
/-- V102 -/
theorem test_xor : stepReg (start 20 [19, 1, 2] [(1, -4), (2, 6)] []) 1 = some (-6, 23) := by decide
/-- V106 -/
theorem test_not : stepReg (start 20 [20, 4] [(4, 2147483647)] []) 4 = some (-2147483648, 22) := by decide

/-! System and I/O -/

/-- V111 -/
theorem test_int : stepIo (start 20 [21, -1] [] []) = some ([.interrupt (-1)], 22) := by decide
/-- V112 -/
theorem test_hlt : seen (fun t => (t.running, t.pc, t.fault)) (step (start 20 [22] [] [])) = some (false, 21, none) := by decide
/-- V113 -/
theorem test_nop : seen id (step (start 20 [23] [(7, 3)] [5])) = some ((start 20 [23] [(7, 3)] [5]).setPc 21) := by decide
/-- V114 -/
theorem test_in : seen (fun t => (t.getReg 1, t.io, t.pc)) (step ((start 20 [24, 1, 3] [] []).setProvider (.script [7, 8]))) =
    some (7, [.input 3 7], 23) := by decide
/-- V115 and V116 -/
theorem test_in_stops : step ((start 20 [24, 1, 3] [] []).setProvider (.script [])) = .fault .inputNotSupplied ∧
    seen (fun t => (t.provider, t.fault)) (step ((start 20 [24, 8, 3] [] []).setProvider (.script [1]))) =
      some (.script [1], some ⟨.invalidRegister, some 24, 22, [8], 8⟩) := by
  constructor
  · rfl
  · decide
/-- V118 -/
theorem test_out : stepIo (start 20 [25, -100, 2] [(2, -9)] []) = some ([.output (-100) (-9)], 23) := by decide
/-- V119 -/
theorem test_out_bad_register : seen (fun t => (t.io, t.fault)) (step (start 20 [25, -3, 8] [] [])) =
    some ([], some ⟨.invalidRegister, some 25, 23, [-3, 8], 8⟩) := by decide

/-! Fetch, faults, leniency and the host's side -/

/-- S8 -/
theorem test_unknown_opcode : seen (fun t => (t.pc, status t)) (step (start 0 [99] [] [])) =
    some (1, false, some ⟨.invalidOpcode, some 99, 1, [], 99⟩) := by decide
/-- V7 -/
theorem test_lenient : seen id (cycle true (start 0 [99, 22] [] [])) = some ((start 0 [99, 22] [] []).setPc 1) := by decide
/-- V4 -/
theorem test_memory_ends : stepStatus (start 65534 [5, 1] [] []) =
    some (false, some ⟨.outOfBounds, some 5, 65536, [1], 65536⟩) := by decide
/-- V2: an HLT in the last cell halts without a fault. -/
theorem test_hlt_last_cell : seen (fun t => (t.pc, status t)) (step (start 65535 [22] [] [])) = some (65536, false, none) := by
  decide
/-- V5 -/
theorem test_halted : step (State.reset.setRunning false) = .fault .notRunning ∧
    runFor 3 (State.reset.setRunning false) = .next (State.reset.setRunning false) := by
  constructor <;> rfl
/-- R126 -/
theorem test_fault_codes : FaultKind.code .outOfBounds = 1 ∧ FaultKind.code .invalidRegister = 2 ∧
    FaultKind.code .invalidOpcode = 3 := by decide
/-- R51, R145 -/
theorem test_host_write : hostWrite 65536 1 State.reset = .refused .hostIndex ∧
    hostWrite (-1) 1 State.reset = .refused .hostIndex ∧
    seen (fun s => (s.memRead 4, s.memRead 5)) (loadProgram 4 [8, 9] State.reset) = some (8, 9) := by
  refine ⟨rfl, rfl, ?_⟩
  decide
/-- R115: an Input entry is not sent to the sink. -/
theorem test_sink : sinkEvents { State.reset with io := [.output 1 6, .input 3 7, .interrupt 33] } =
    [⟨.output, some 1, none, some 6⟩, ⟨.interrupt, none, some 33, none⟩] := by decide
/-- R155: the views open when the core stops. -/
theorem test_inspect : inspect State.reset = none ∧
    (inspect (State.reset.setRunning false)).map View.pc = some 0 := by decide
/-- R40: writing the reset value removes the entry, so that equal memories are equal data. -/
theorem test_memory_form : ((State.reset.memWrite 5 1).memWrite 3 2).mem = [(3, 2), (5, 1)] ∧
    ((State.reset.memWrite 5 1).memWrite 5 0).mem = [] := by decide

/-! Witnesses: states and operands that meet the hypotheses of the statements, at the ends of their ranges -/

/-- The last two cells of memory, and the last one, lie before the pointer. -/
def edge2 : State := (State.reset.setPc 65534).setStack [7, -5]
def edge1 : State := (State.reset.setPc 65535).setStack [7, -5]

theorem witness_OpcodeNumbers : opcodeOf 0 = some .load ∧ opcodeOf 25 = some .out ∧ opcodeOf 26 = none ∧
    opcodeOf (-1) = none := by decide

theorem witness_FetchReadsThenAdvances : validIndex edge1.pc = true ∧ validIndex State.reset.pc = true ∧
    validIndex (State.reset.setPc 65536).pc = false ∧ validIndex (State.reset.setPc (-1)).pc = false := by decide

theorem witness_StepRunsDecodedInstruction :
    ((start 65533 [2, 7, 0] [] []).running = true ∧ validIndex (start 65533 [2, 7, 0] [] []).pc = true ∧
      decodedAt (start 65533 [2, 7, 0] [] []) = .ok (.mov 7 0)) ∧
    ((start 65535 [22] [] []).running = true ∧ validIndex (start 65535 [22] [] []).pc = true ∧
      decodedAt (start 65535 [22] [] []) = .ok .hlt) :=
  ⟨⟨rfl, rfl, rfl⟩, rfl, rfl, rfl⟩

theorem witness_UnknownOpcodeFaultsOrIsSkipped :
    (start 65535 [26] [] []).running = true ∧ validIndex (start 65535 [26] [] []).pc = true ∧
    opcodeOf ((start 65535 [26] [] []).memRead (cellNo (start 65535 [26] [] []).pc)) = none := ⟨rfl, rfl, rfl⟩

theorem witness_LeniencyConcernsUnknownOpcodesOnly :
    cycle true (start 65535 [26] [] []) ≠ cycle false (start 65535 [26] [] []) :=
  fun h => absurd (congrArg (seen State.running) h) (by decide)

theorem witness_OperandsFetchedOneByOne :
    ((start 65534 [5, 1] [] []).running = true ∧ validIndex (start 65534 [5, 1] [] []).pc = true ∧
      opcodeOf ((start 65534 [5, 1] [] []).memRead (cellNo (start 65534 [5, 1] [] []).pc)) = some .add ∧
      ∃ t, fetchEach (Config.opc .add) Opcode.add.operandKinds [] ((start 65534 [5, 1] [] []).advance 1) = .inl t) ∧
    ((start 65533 [5, 1, 7] [] []).running = true ∧ validIndex (start 65533 [5, 1, 7] [] []).pc = true ∧
      opcodeOf ((start 65533 [5, 1, 7] [] []).memRead (cellNo (start 65533 [5, 1, 7] [] []).pc)) = some .add ∧
      ∃ u, fetchEach (Config.opc .add) Opcode.add.operandKinds [] ((start 65533 [5, 1, 7] [] []).advance 1) =
        .inr ([1, 7], u)) :=
  ⟨⟨rfl, rfl, rfl, _, rfl⟩, rfl, rfl, rfl, _, rfl⟩

theorem witness_StoppedCoreHasNoStep : (edge2.setRunning false).running = false := rfl

/-- One state for each of the four ends. -/
theorem witness_StepEndsInOneOfThreeWays :
    seen (fun t => (t.fault, t.running)) (step (start 65535 [23] [] [])) = some (none, true) ∧
    seen (fun t => t.fault.isSome) (step (start 65535 [26] [] [])) = some true ∧
    step (edge2.setRunning false) = .fault .notRunning ∧
    step ((start 65533 [24, 7, -1] [] []).setProvider (.script [])) = .fault .inputNotSupplied := by
  refine ⟨?_, ?_, rfl, rfl⟩ <;> decide

theorem witness_RunIsRepeatedSteps : (∃ t, runFor 2 (start 65534 [23, 22] [] []) = .next t) ∧
    (start 65535 [23] [] []).running = true ∧ ∃ t, step (start 65535 [23] [] []) = .next t := ⟨⟨_, rfl⟩, rfl, _, rfl⟩

theorem witness_FaultingInstructionHasNoEffect :
    faultOf (.mov 7 8) edge2 = some ⟨.invalidRegister, some 2, 65536, [7, 8], 8⟩ ∧
    faultOf (.mov 7 7) edge1 = some ⟨.outOfBounds, some 2, 65536, [7], 65536⟩ ∧
    (start 65535 [26] [] []).fault = none ∧ seen State.fault (cycle false (start 65535 [26] [] [])) =
      some (some ⟨.invalidOpcode, some 26, 65536, [], 26⟩) := by decide

/-- The first row of R132. -/
theorem witness_FaultRecordTable_pc : (State.reset.setPc 65536).running = true ∧
    validIndex (State.reset.setPc 65536).pc = false := ⟨rfl, rfl⟩
/-- The second row. -/
theorem witness_FaultRecordTable_opcode : (start 65535 [26] [] []).running = true ∧
    validIndex (start 65535 [26] [] []).pc = true ∧
    (start 65535 [26] [] []).memRead (cellNo (start 65535 [26] [] []).pc) = 26 ∧ opcodeOf 26 = none := by decide
/-- The third row. -/
theorem witness_FaultRecordTable_first_fetch : (start 65535 [9] [] []).running = true ∧
    validIndex (start 65535 [9] [] []).pc = true ∧ decodedAt (start 65535 [9] [] []) = .ok (.inc 0) ∧
    Opcode.inc.operandKinds = [.reg] ∧ (Instr.inc 0).operands = [0] ∧
    validIndex ((start 65535 [9] [] []).pc + 1) = false := ⟨rfl, rfl, rfl, rfl, rfl, rfl⟩
/-- The fourth row. -/
theorem witness_FaultRecordTable_first_check : (start 65534 [9, 8] [] []).running = true ∧
    validIndex (start 65534 [9, 8] [] []).pc = true ∧ decodedAt (start 65534 [9, 8] [] []) = .ok (.inc 8) ∧
    Opcode.inc.operandKinds = [.reg] ∧ (Instr.inc 8).operands = [8] ∧
    validIndex ((start 65534 [9, 8] [] []).pc + 1) = true ∧ operandCheck .reg 8 = some .invalidRegister :=
  ⟨rfl, rfl, rfl, rfl, rfl, rfl, rfl⟩
/-- The fifth row. -/
theorem witness_FaultRecordTable_second_fetch : (start 65534 [1, 7] [] []).running = true ∧
    validIndex (start 65534 [1, 7] [] []).pc = true ∧ decodedAt (start 65534 [1, 7] [] []) = .ok (.store 7 0) ∧
    Opcode.store.operandKinds = [.reg, .addr] ∧ (Instr.store 7 0).operands = [7, 0] ∧
    validIndex ((start 65534 [1, 7] [] []).pc + 1) = true ∧ operandCheck .reg 7 = none ∧
    validIndex ((start 65534 [1, 7] [] []).pc + 2) = false := ⟨rfl, rfl, rfl, rfl, rfl, rfl, rfl, rfl⟩
/-- The sixth row. -/
theorem witness_FaultRecordTable_second_check : (start 65533 [1, 7, 65536] [] []).running = true ∧
    validIndex (start 65533 [1, 7, 65536] [] []).pc = true ∧
    decodedAt (start 65533 [1, 7, 65536] [] []) = .ok (.store 7 65536) ∧
    Opcode.store.operandKinds = [.reg, .addr] ∧ (Instr.store 7 65536).operands = [7, 65536] ∧
    validIndex ((start 65533 [1, 7, 65536] [] []).pc + 1) = true ∧ operandCheck .reg 7 = none ∧
    validIndex ((start 65533 [1, 7, 65536] [] []).pc + 2) = true ∧ operandCheck .addr 65536 = some .outOfBounds :=
  ⟨rfl, rfl, rfl, rfl, rfl, rfl, rfl, rfl, rfl⟩
/-- The rule for `p`. -/
theorem witness_FaultRecordTable_index : (start 65535 [9] [] []).running = true ∧ (start 65535 [9] [] []).fault = none ∧
    ∃ t r, step (start 65535 [9] [] []) = .next t ∧ t.fault = some r := ⟨rfl, rfl, _, _, rfl, rfl⟩

/-- A state that has taken a fault. -/
def faulted : State := State.reset.stopped ⟨.invalidOpcode, some 26, 1, [], 26⟩

theorem witness_LatchWrittenOnce : Inv faulted ∧ Reaches faulted faulted ∧
    faulted.fault = some ⟨.invalidOpcode, some 26, 1, [], 26⟩ := by
  refine ⟨⟨rfl, nofun, ?_, nofun⟩, .refl _, rfl⟩
  intro r h
  cases h
  exact ⟨by decide, rfl⟩

theorem witness_LoadCopiesCellToRegister : validReg 7 = true ∧ validIndex 65535 = true ∧ CanFetch 2 edge2 := by decide
theorem witness_StoreCopiesRegisterToCell : edge2.mem.wf = true ∧ validReg 7 = true ∧ validIndex 65535 = true ∧
    CanFetch 2 edge2 := by decide
theorem witness_MovCopiesRegister : validReg 7 = true ∧ validReg 0 = true ∧ CanFetch 2 edge2 := by decide

theorem witness_PushAppendsRegister : validReg 7 = true ∧ CanFetch 1 edge1 := by decide
theorem witness_PopMovesTopToRegister : (validReg 7 = true ∧ CanFetch 1 edge1 ∧ edge1.stack = [7] ++ [-5]) ∧
    (validReg 0 = true ∧ CanFetch 1 State.reset ∧ State.reset.stack = []) := by decide
theorem witness_PushThenPopMovesRegister : (start 65532 [3, 7, 4, 0] [] []).running = true ∧
    CanFetch 4 (start 65532 [3, 7, 4, 0] [] []) ∧ decodedAt (start 65532 [3, 7, 4, 0] [] []) = .ok (.push 7) ∧
    decodedAt { start 65532 [3, 7, 4, 0] [] [] with pc := (start 65532 [3, 7, 4, 0] [] []).pc + 2 } = .ok (.pop 0) ∧
    validReg 7 = true ∧ validReg 0 = true := ⟨rfl, by decide, rfl, rfl, rfl, rfl⟩
theorem witness_StackBoundRefusesOnlyWhenFull : edge2.stack.length < 3 ∧ 2 ≤ edge2.stack.length := by decide

theorem witness_AddSubMulWrapAround : validReg 7 = true ∧ validReg 0 = true ∧ CanFetch 2 edge2 := by decide
theorem witness_IncDecWrapAround : validReg 7 = true ∧ CanFetch 1 edge1 := by decide
theorem witness_DivisionTruncates : (-1 : Word) ≠ 0 ∧ ¬ ((7 : Word) = Word.minValue ∧ (-2 : Word) = -1) ∧
    wrap (-2147483648) = Word.minValue := by decide
theorem witness_DivDividesOrSkips : validReg 7 = true ∧ validReg 0 = true ∧ CanFetch 2 (edge2.setReg 0 (-1)) ∧
    (edge2.setReg 0 (-1)).getReg (regNo 0) ≠ 0 ∧ CanFetch 2 edge2 ∧ edge2.getReg (regNo 0) = 0 := by decide

theorem witness_JmpSetsPc : validIndex 65535 = true ∧ CanFetch 1 edge1 := by decide
theorem witness_ConditionalJumpsTestRegisterZero : validIndex 65535 = true ∧ CanFetch 1 edge1 ∧
    (edge1.getReg 0).toInt = 0 ∧ CanFetch 1 (edge1.setReg 0 (-1)) ∧ ((edge1.setReg 0 (-1)).getReg 0).toInt ≠ 0 := by decide
theorem witness_CallPushesReturnAddress : validIndex 65535 = true ∧ CanFetch 1 edge1 := by decide
theorem witness_RetPopsPc : edge1.stack = [7] ++ [-5] ∧ State.reset.stack = [] := by decide

/-- CALL in the last two cells, its RET at cell 0. -/
theorem witness_RetResumesAfterCall : (start 65534 [14, 0] [] []).running = true ∧ CanFetch 2 (start 65534 [14, 0] [] []) ∧
    decodedAt (start 65534 [14, 0] [] []) = .ok (.call 0) ∧ validIndex 0 = true ∧
    ∃ t, step (start 65534 [14, 0] [] []) = .next t ∧ (start 0 [15] [] [65536]).running = true ∧
      validIndex (start 0 [15] [] [65536]).pc = true ∧ decodedAt (start 0 [15] [] [65536]) = .ok .ret ∧
      (start 0 [15] [] [65536]).stack = t.stack := ⟨rfl, by decide, rfl, rfl, _, rfl, rfl, rfl, rfl, rfl⟩
theorem witness_JmpToItselfNeverEnds : (start 65534 [11, 65534] [] []).running = true ∧
    CanFetch 2 (start 65534 [11, 65534] [] []) ∧
    decodedAt (start 65534 [11, 65534] [] []) = .ok (.jmp (start 65534 [11, 65534] [] []).pc) := ⟨rfl, by decide, rfl⟩

theorem witness_CmpWritesEquality : validReg 7 = true ∧ validReg 0 = true ∧ CanFetch 2 edge2 ∧
    (edge2.getReg (regNo 7)).toInt = (edge2.getReg (regNo 0)).toInt ∧ CanFetch 2 (edge2.setReg 7 (-1)) ∧
    ((edge2.setReg 7 (-1)).getReg (regNo 7)).toInt ≠ ((edge2.setReg 7 (-1)).getReg (regNo 0)).toInt := by decide
theorem witness_BitwiseActsOnEachBit : validReg 7 = true ∧ validReg 0 = true ∧ CanFetch 2 edge2 := by decide
theorem witness_NotComplements : validReg 7 = true ∧ CanFetch 1 edge1 := by decide

theorem witness_IntAndOutEmitOneEvent : CanFetch 1 edge1 ∧ validReg 7 = true ∧ CanFetch 2 edge2 := by decide
theorem witness_InWritesTheAnswer : validReg 7 = true ∧ CanFetch 2 edge2 ∧ edge2.provider = .free 0 ∧
    CanFetch 2 (edge2.setProvider (.script [-1])) ∧ (edge2.setProvider (.script [-1])).provider = .script (-1 :: []) := by
  decide
theorem witness_InWaitsForAnAnswer : validReg 7 = true ∧ CanFetch 2 (edge2.setProvider (.script [])) ∧
    (edge2.setProvider (.script [])).provider.hasAnswer = false ∧ validReg 8 = false ∧ CanFetch 1 edge1 := by decide
theorem witness_HltStopsTheCore : (start 65535 [22] [] []).running = true ∧ validIndex (start 65535 [22] [] []).pc = true ∧
    (start 65535 [22] [] []).memRead (cellNo (start 65535 [22] [] []).pc) = Config.opc .hlt ∧
    ∃ t, step (start 65535 [22] [] []) = .next t ∧ t.running = false ∧ t.fault = none :=
  ⟨rfl, rfl, rfl, _, rfl, rfl, rfl⟩
theorem witness_NopOnlyAdvances : (start 65535 [23] [] []).running = true ∧ validIndex (start 65535 [23] [] []).pc = true ∧
    (start 65535 [23] [] []).memRead (cellNo (start 65535 [23] [] []).pc) = Config.opc .nop := by decide
theorem witness_SinkReceivesOutAndInt : (∃ t, exec (.out (-100) 7) edge2 = .next t) ∧ faultOf (.out (-100) 7) edge2 = none ∧
    (∃ t, exec (.int (-1)) edge1 = .next t) ∧ faultOf (.int (-1)) edge1 = none ∧
    (∃ t, exec (.inp 7 3) edge2 = .next t) ∧ faultOf (.inp 7 3) edge2 = none :=
  ⟨⟨_, rfl⟩, rfl, ⟨_, rfl⟩, rfl, ⟨_, rfl⟩, rfl⟩

theorem witness_RegistersWrittenAreTheTables : (∃ t, exec (.add 7 0) edge2 = .next t) ∧ (0 : RegNo) ∉ regsWritten (.add 7 0) :=
  ⟨⟨_, rfl⟩, by decide⟩
theorem witness_MemoryWrittenByStoreOnly : edge2.mem.wf = true ∧ (∃ t, exec (.store 7 65535) edge2 = .next t) ∧
    storeTarget (.store 7 65535) ≠ some 65534 ∧ (∃ t, exec (.push 7) edge1 = .next t) ∧ storeTarget (.push 7) ≠ some 65535 :=
  ⟨rfl, ⟨_, rfl⟩, by decide, ⟨_, rfl⟩, by decide⟩
theorem witness_StackChangesAtTheTopOnly : (∃ t, exec (.pop 7) edge1 = .next t) ∧ faultOf (.pop 7) edge1 = none ∧
    (∃ t, exec (.pop 8) edge1 = .next t) ∧ (faultOf (.pop 8) edge1).isSome = true := ⟨⟨_, rfl⟩, rfl, ⟨_, rfl⟩, rfl⟩
theorem witness_HistoryGrowsByOneTransaction : (∃ t, exec (.out 3 7) edge2 = .next t) ∧ faultOf (.out 3 7) edge2 = none ∧
    (∃ t, exec (.out 3 8) edge2 = .next t) ∧ (faultOf (.out 3 8) edge2).isSome = true := ⟨⟨_, rfl⟩, rfl, ⟨_, rfl⟩, rfl⟩
theorem witness_ControlStateKeptByInstructions : (∃ t, exec .hlt edge1 = .next t) ∧ faultOf .hlt edge1 = none ∧
    (∀ reg port, Instr.hlt ≠ .inp reg port) ∧ (∃ t, exec (.inp 7 3) edge2 = .next t) ∧ faultOf (.inp 7 3) edge2 = none :=
  ⟨⟨_, rfl⟩, rfl, nofun, ⟨_, rfl⟩, rfl⟩
theorem witness_PcAfterEachInstruction_call : validIndex (start 65534 [14, 0] [] []).pc = true ∧
    decodedAt (start 65534 [14, 0] [] []) = .ok (.call 0) ∧
    (∃ t, cycle false (start 65534 [14, 0] [] []) = .next t) ∧
    faultOf (.call 0) ((start 65534 [14, 0] [] []).advance 1) = none := ⟨rfl, rfl, ⟨_, rfl⟩, rfl⟩
theorem witness_PcAfterEachInstruction : validIndex (start 65534 [12, 65535] [] []).pc = true ∧
    decodedAt (start 65534 [12, 65535] [] []) = .ok (.jz 65535) ∧
    (∃ t, cycle false (start 65534 [12, 65535] [] []) = .next t) ∧
    faultOf (.jz 65535) ((start 65534 [12, 65535] [] []).advance 1) = none := ⟨rfl, rfl, ⟨_, rfl⟩, rfl⟩

theorem witness_StepKeepsTheInvariant : Inv State.reset ∧ (∃ t, cycle false State.reset = .next t) ∧
    ∃ t, cycle true State.reset = .next t := ⟨⟨rfl, fun _ => rfl, nofun, nofun⟩, ⟨_, rfl⟩, _, rfl⟩
theorem witness_RunningClearedByHltOrFault : (∃ t, hostWrite 65535 7 edge2 = .next t) ∧ (edge2.setRunning false).running = false ∧
    (start 65535 [22] [] []).fault = none ∧ ∃ t, cycle false (start 65535 [22] [] []) = .next t := ⟨⟨_, rfl⟩, rfl, rfl, _, rfl⟩
/-- One state for each of the three ways. -/
theorem witness_PcLeavesMemoryInTwoWaysOnly : (∃ t, cycle false (start 65535 [23] [] []) = .next t ∧ t.pc.toInt = 65536) ∧
    (∃ t, cycle false (start 65535 [15] [] [-5]) = .next t ∧ decodedAt (start 65535 [15] [] [-5]) = .ok .ret ∧ t.pc = -5) ∧
    (∃ t, cycle false (State.reset.setPc (-5)) = .next t ∧ validIndex (State.reset.setPc (-5)).pc = false) :=
  ⟨⟨_, rfl, rfl⟩, ⟨_, rfl, rfl, rfl⟩, _, rfl, rfl⟩
theorem witness_HistoryOnlyGrows : ∃ t, Reaches (start 0 [21, 33] [] []) t ∧ t.io = [.interrupt 33] :=
  ⟨_, .tail (.refl _) rfl, rfl⟩
theorem witness_HistoryIsNeverRead : (∃ t, cycle false (start 0 [21, 33] [] []) = .next t) ∧
    cycle false (edge2.setRunning false) = .fault .notRunning := ⟨⟨_, rfl⟩, rfl⟩
theorem witness_LatchIsNeverRead : (start 0 [21, 33] [] []).fault = none ∧
    (∃ t, cycle false (start 0 [21, 33] [] []) = .next t) ∧ (edge2.setRunning false).fault = none ∧
    cycle false (edge2.setRunning false) = .fault .notRunning := ⟨rfl, ⟨_, rfl⟩, rfl, rfl⟩
/-- A STORE into its own last cell. -/
theorem witness_StoreIsSeenByTheFetch : (start 65533 [1, 7, 65535] [(7, 22)] []).running = true ∧
    (start 65533 [1, 7, 65535] [(7, 22)] []).mem.wf = true ∧ CanFetch 3 (start 65533 [1, 7, 65535] [(7, 22)] []) ∧
    decodedAt (start 65533 [1, 7, 65535] [(7, 22)] []) = .ok (.store 7 65535) ∧ validReg 7 = true ∧
    validIndex 65535 = true ∧
    ∃ t u : State, step (start 65533 [1, 7, 65535] [(7, 22)] []) = .next t ∧ u.mem = t.mem ∧ u.pc = 65535 :=
  ⟨rfl, rfl, by decide, rfl, rfl, rfl, _, { (start 65533 [1, 7, 22] [] []) with pc := 65535 }, rfl, rfl, rfl⟩
theorem witness_ZeroCellsLoadRegisterZero : (State.reset.setPc 65533).running = true ∧ CanFetch 3 (State.reset.setPc 65533) ∧
    (State.reset.setPc 65533).memRead (cellNo (State.reset.setPc 65533).pc) = 0 ∧
    (State.reset.setPc 65533).memRead (cellNo (State.reset.setPc 65533).pc + 1) = 0 ∧
    (State.reset.setPc 65533).memRead (cellNo (State.reset.setPc 65533).pc + 2) = 0 := by decide
theorem witness_HostWriteReplacesOneCellOrIsRefused : edge2.mem.wf = true ∧ edge2.running = true ∧
    ((0 : Int) ≤ 65535 ∧ (65535 : Int) < Config.memCap) ∧ ¬ ((0 : Int) ≤ 65536 ∧ (65536 : Int) < Config.memCap) ∧
    ¬ ((0 : Int) ≤ -1 ∧ (-1 : Int) < Config.memCap) ∧ (edge2.setRunning false).running = false := by decide

end Sys2Proof.Tests
end

section
/-! What an instruction does once its operands are checked, and how its step ends from there. -/
namespace Sys2Proof.Machine

/-! The operand checks and the transition behind them (R75) -/

/-- The transition of an instruction after its operand fetches (R75): the state has `pc` past the last operand. -/
def transition : Instr → State → Out
  | .load reg addr, s => .next (s.setReg (regNo reg) (s.memRead (cellNo addr)))
  | .store reg addr, s => .next (s.memWrite (cellNo addr) (s.getReg (regNo reg)))
  | .mov regDst regSrc, s => .next (s.setReg (regNo regDst) (s.getReg (regNo regSrc)))
  | .push reg, s => .next (s.setStack (s.stack ++ [s.getReg (regNo reg)]))
  | .pop reg, s =>
    match pop s with
    | some (v, s) => .next (s.setReg (regNo reg) v)
    | none => .next s
  | .add reg1 reg2, s => binaryInto aluAdd reg1 reg2 s
  | .sub reg1 reg2, s => binaryInto aluSub reg1 reg2 s
  | .mul reg1 reg2, s => binaryInto aluMul reg1 reg2 s
  | .div reg1 reg2, s => if s.getReg (regNo reg2) = 0 then .next s else binaryInto aluDiv reg1 reg2 s
  | .inc reg, s => unaryInto aluInc reg s
  | .dec reg, s => unaryInto aluDec reg s
  | .jmp addr, s => .next (s.setPc addr)
  | .jz addr, s => .next (if zeroCondition s then s.setPc addr else s)
  | .jnz addr, s => .next (if zeroCondition s then s else s.setPc addr)
  | .call addr, s => .next ((s.setStack (s.stack ++ [s.pc])).setPc addr)
  | .ret, s =>
    match pop s with
    | some (v, s) => .next (s.setPc v)
    | none => .next s
  | .cmp reg1 reg2, s => .next (s.setReg 0 (equalFlag (s.getReg (regNo reg1)) (s.getReg (regNo reg2))))
  | .and reg1 reg2, s => binaryInto aluAnd reg1 reg2 s
  | .or reg1 reg2, s => binaryInto aluOr reg1 reg2 s
  | .xor reg1 reg2, s => binaryInto aluXor reg1 reg2 s
  | .not reg, s => unaryInto aluNot reg s
  | .int code, s => .next (s.emit (.interrupt code))
  | .hlt, s => .next (s.setRunning false)
  | .nop, s => .next s
  | .inp reg port, s =>
    match s.provider.answer port with
    | some (v, p) => .next (((s.setProvider p).setReg (regNo reg) v).emit (.input port v))
    | none => .fault .inputNotSupplied
  | .out port reg, s => .next (s.emit (.output port (s.getReg (regNo reg))))

/-- Every instruction is its operand fetches followed by its transition; the push of PUSH and CALL is not refused, the
stack being unbounded (D5). -/
theorem exec_eq_operandsOf (i : Instr) (s : State) :
    exec i s = operandsOf i.opcode (i.opcode.operandKinds.zip i.operands) s (transition i) := by
  cases i <;> rfl

theorem exec_of_faultOf_some {i : Instr} {s : State} {r : FaultRecord} (h : faultOf i s = some r) :
    exec i s = .next (s.stopped r) := by
  rw [exec_eq_operandsOf, operandsOf_eq, ← faultOf, h]

theorem exec_of_faultOf_none {i : Instr} {s : State} (h : faultOf i s = none) :
    exec i s = transition i (s.advance i.operands.length) := by
  rw [exec_eq_operandsOf, operandsOf_eq, ← faultOf, h]
  simp [operands_length]

/-- Operands that all pass have all their cells in memory. -/
theorem canFetch_of_operandFault_none {op : Word} {ops : List (OperandKind × Word)} {before : List Word} {s : State}
    (hs : CanFetch 0 s) (h : operandFault op s.pc before ops = none) : CanFetch ops.length s := by
  induction ops generalizing before s with
  | nil => exact hs
  | cons o rest ih =>
    obtain ⟨kind, v⟩ := o
    simp only [operandFault] at h
    split_ifs at h with hv _ _
    have hpc : (s.advance 1).pc.toInt = s.pc.toInt + 1 := toInt_succ (by simpa using hv)
    have hvalid := (validIndex_iff s.pc).mp (by simpa using hv)
    obtain ⟨-, hrest⟩ := ih (s := s.advance 1) ⟨by omega, by omega⟩ h
    exact ⟨hvalid.1, by simp only [List.length_cons]; omega⟩

theorem canFetch_of_faultOf_none {i : Instr} {s : State} (hs : CanFetch 0 s) (h : faultOf i s = none) :
    CanFetch i.operands.length s := by
  simpa [operands_length] using canFetch_of_operandFault_none hs h

/-! What a transition leaves -/

/-- A pop, by the shape of the stack (R10, R23). -/
theorem pop_cases (s : State) :
    (s.stack = [] ∧ pop s = none) ∨ ∃ st v, s.stack = st ++ [v] ∧ pop s = some (v, s.setStack st) := by
  obtain hs | ⟨st, v, hs⟩ := List.eq_nil_or_concat' s.stack
  · exact .inl ⟨hs, pop_empty hs⟩
  · exact .inr ⟨st, v, hs, pop_top hs⟩

/-- POP's next state, by the shape of the stack (R23, R90). -/
theorem transition_pop_next {reg : Word} {s t : State} (h : transition (.pop reg) s = .next t) :
    (s.stack = [] ∧ t = s) ∨ ∃ st v, s.stack = st ++ [v] ∧ t = (s.setStack st).setReg (regNo reg) v := by
  obtain ⟨hs, hp⟩ | ⟨st, v, hs, hp⟩ := pop_cases s <;> rw [transition, hp] at h <;> cases h
  · exact .inl ⟨hs, rfl⟩
  · exact .inr ⟨st, v, hs, rfl⟩

/-- RET's next state, by the shape of the stack (R23, R107). -/
theorem transition_ret_next {s t : State} (h : transition .ret s = .next t) :
    (s.stack = [] ∧ t = s) ∨ ∃ st v, s.stack = st ++ [v] ∧ t = (s.setStack st).setPc v := by
  obtain ⟨hs, hp⟩ | ⟨st, v, hs, hp⟩ := pop_cases s <;> rw [transition, hp] at h <;> cases h
  · exact .inl ⟨hs, rfl⟩
  · exact .inr ⟨st, v, hs, rfl⟩

/-- DIV writes its quotient or nothing (R98). -/
theorem transition_div_next {reg1 reg2 : Word} {s t : State} (h : transition (.div reg1 reg2) s = .next t) :
    t = s ∨ ∃ v, t = s.setReg (regNo reg1) v := by
  rw [transition] at h
  split at h
  · exact .inl (by cases h; rfl)
  · exact .inr ⟨_, by cases h; rfl⟩

/-- IN has a next state only where it is answered (R120). -/
theorem transition_inp_next {reg port : Word} {s t : State} (h : transition (.inp reg port) s = .next t) :
    ∃ v p, s.provider.answer port = some (v, p) ∧
      t = ((s.setProvider p).setReg (regNo reg) v).emit (.input port v) := by
  rw [transition] at h
  split at h
  · next v p ha => exact ⟨v, p, ha, by cases h; rfl⟩
  · cases h

/-- No transition touches the latch, and HLT alone the running flag (R25, R26). -/
theorem transition_control {i : Instr} {s t : State} (h : transition i s = .next t) :
    t.fault = s.fault ∧ t.running = if i = .hlt then false else s.running := by
  cases i with
  | pop _ => obtain ⟨-, rfl⟩ | ⟨st, v, -, rfl⟩ := transition_pop_next h <;> simp
  | ret => obtain ⟨-, rfl⟩ | ⟨st, v, -, rfl⟩ := transition_ret_next h <;> simp
  | div _ _ => obtain rfl | ⟨v, rfl⟩ := transition_div_next h <;> simp
  | jz _ | jnz _ => cases h; split <;> simp
  | inp _ _ => obtain ⟨v, p, -, rfl⟩ := transition_inp_next h; simp
  | _ => cases h; simp

theorem zeroCondition_iff (s : State) : zeroCondition s = true ↔ (s.getReg 0).toInt = 0 := by
  simp [zeroCondition, ← BitVec.toInt_inj]

/-- The table of R20, read from the state before the operand fetches. -/
theorem transition_pc {i : Instr} {s t : State} (h : transition i (s.advance i.operands.length) = .next t) :
    t.pc = pcAfter i s := by
  cases i with
  | pop _ => obtain ⟨-, rfl⟩ | ⟨st, v, -, rfl⟩ := transition_pop_next h <;> rfl
  | ret =>
    obtain ⟨hs, rfl⟩ | ⟨st, v, hs, rfl⟩ := transition_ret_next h <;>
      simp only [advance_stack] at hs <;> simp [pcAfter, hs]
  | div _ _ => obtain rfl | ⟨v, rfl⟩ := transition_div_next h <;> rfl
  | jz _ | jnz _ =>
    cases h
    simp only [zeroCondition_iff, getReg_advance, pcAfter, ne_eq, ite_not]
    split <;> rfl
  | inp _ _ => obtain ⟨v, p, -, rfl⟩ := transition_inp_next h; rfl
  | _ => cases h; rfl

/-! The step (R20, R26) -/

/-- A decoded instruction whose operands all pass ends its step with its transition. -/
theorem transition_of_cycle {lenient : Bool} {i : Instr} {s t : State} (hd : decodedAt s = .ok i)
    (hv : validIndex s.pc = true) (hf : faultOf i (s.advance 1) = none) (h : cycle lenient s = .next t) :
    transition i ((s.advance 1).advance i.operands.length) = .next t := by
  obtain ⟨-, hc⟩ | ⟨-, hv', -⟩ | ⟨-, -, j, hj, hc⟩ | ⟨-, -, e, he, -⟩ := cycle_cases lenient s
  · simp [hc] at h
  · simp [hv'] at hv
  · obtain rfl : i = j := by simpa [hd] using hj
    rw [← exec_of_faultOf_none hf, ← hc, h]
  · simp [hd] at he

theorem canFetch_zero_advance_one {s : State} (hv : validIndex s.pc = true) : CanFetch 0 (s.advance 1) := by
  obtain ⟨h0, h1⟩ := (validIndex_iff s.pc).mp hv
  exact (canFetch_succ (n := 0) ⟨h0, by omega⟩).2

/-- Settles O47: the table of R20 is read off the transition, and the checks that pass keep `pc` inside memory, where its
moves are exact. -/
theorem pcAfterEachInstruction : Obligations.PcAfterEachInstruction := by
  unfold Obligations.PcAfterEachInstruction
  refine ⟨fun c s k hv => ⟨s.advance 1, consume_ok hv, toInt_succ hv⟩, fun lenient i s t hv hd h hf => ?_⟩
  have ht := transition_of_cycle hd hv hf h
  have hp1 : (s.advance 1).pc.toInt = s.pc.toInt + 1 := toInt_succ hv
  have hlen := canFetch_advance (canFetch_of_faultOf_none (canFetch_zero_advance_one hv) hf)
  refine ⟨transition_pc ht, ?_, ?_⟩
  · rw [advance_pc, hp1] at hlen
    rw [hlen, encode, List.length_cons]
    omega
  · rintro addr rfl
    cases ht
    refine ⟨_, ?_, rfl⟩
    rw [hlen, hp1]
    simp [Instr.operands]
    omega

/-- A host write touches no field but memory (R51). -/
theorem hostWrite_next {index : Int} {v : Word} {s t : State} (h : hostWrite index v s = .next t) :
    t = s.memWrite index.toNat v := by
  unfold hostWrite at h
  split_ifs at h
  cases h
  rfl

/-- Where `running` is false there is no step and no iteration (R83). -/
theorem no_step_of_not_running {s : State} (hr : s.running = false) :
    (∀ lenient, cycle lenient s = .fault .notRunning) ∧ ∀ n, runFor n s = .next s := by
  refine ⟨fun lenient => by simp [cycle, hr], fun n => ?_⟩
  cases n with
  | zero => rfl
  | succ n => simp [runFor, hr]

/-- An instruction executed from an empty latch clears a set flag exactly by faulting or by being HLT. -/
theorem exec_clears_running_iff {i : Instr} {s t : State} (hr : s.running = true) (hl : s.fault = none)
    (h : exec i s = .next t) : t.running = false ↔ t.fault.isSome = true ∨ i = .hlt := by
  cases hf : faultOf i s with
  | some r =>
    rw [exec_of_faultOf_some hf] at h
    cases h
    simp
  | none =>
    rw [exec_of_faultOf_none hf] at h
    obtain ⟨hfault, hrun⟩ := transition_control h
    simp [hfault, hrun, hl, hr]

/-- Settles O51, by the four ways of a cycle. -/
theorem runningClearedByHltOrFault : Obligations.RunningClearedByHltOrFault := by
  unfold Obligations.RunningClearedByHltOrFault
  refine ⟨fun s => rfl, fun s => rfl, fun index v s t h => by rw [hostWrite_next h, memWrite_running],
    fun s hr => no_step_of_not_running hr, fun lenient s t hl h => ?_⟩
  obtain ⟨-, hc⟩ | ⟨hr, hv, hc⟩ | ⟨hr, hv, i, hd, hc⟩ | ⟨hr, hv, e, hd, hc⟩ := cycle_cases lenient s <;> rw [hc] at h
  · cases h
  · cases h
    simp [hr]
  · refine ⟨hr, ?_⟩
    rw [exec_clears_running_iff (s := s.advance 1) hr hl h, hd]
    simp [hv]
  · cases lenient <;> cases h <;> simp [hr, hl, hd]

end Sys2Proof.Machine
end

section
/-! HLT and NOP, the two system instructions without operands: what the opcode cell decides, and their steps. -/
namespace Sys2Proof.Machine

/-! The opcode cell and the instruction it decodes to (R59, R64) -/

theorem oneOperand_some {f : Word → Instr} {cells rest : List Word} {i : Instr}
    (h : oneOperand f cells = some (i, rest)) : ∃ a, i = f a := by
  cases cells with
  | nil => cases h
  | cons a _ => exact ⟨a, by cases h; rfl⟩

theorem twoOperands_some {f : Word → Word → Instr} {cells rest : List Word} {i : Instr}
    (h : twoOperands f cells = some (i, rest)) : ∃ a b, i = f a b := by
  match cells with
  | [] | [_] => cases h
  | a :: b :: _ => exact ⟨a, b, by cases h; rfl⟩

theorem opcode_of_withOperands {m : Opcode} {cells rest : List Word} {i : Instr}
    (h : withOperands m cells = some (i, rest)) : i.opcode = m := by
  cases m with
  | ret | hlt | nop => cases h; rfl
  | push | pop | inc | dec | jmp | jz | jnz | call | not | int =>
    obtain ⟨a, rfl⟩ := oneOperand_some h
    rfl
  | _ =>
    obtain ⟨a, b, rfl⟩ := twoOperands_some h
    rfl

theorem decode_opc_cons {m : Opcode} {cells : List Word} {r : Instr × List Word} (h : withOperands m cells = some r) :
    decode (Config.opc m :: cells) = .ok r := by
  simp [decode, h]

/-- What the decoder accepts begins with the opcode cell of what it reads. -/
theorem opc_of_decode_ok {op : Word} {cells rest : List Word} {i : Instr}
    (h : decode (op :: cells) = .ok (i, rest)) : op = Config.opc i.opcode := by
  rw [decode] at h
  split at h
  · cases h
  · next m hm =>
    split at h
    · cases h
    · next hw =>
      cases h
      rw [opcode_of_withOperands hw, opc_of_opcodeOf hm]

theorem memRead_pc_of_decodedAt {s : State} {i : Instr} (h : decodedAt s = .ok i) :
    s.memRead (cellNo s.pc) = Config.opc i.opcode := by
  rw [decodedAt] at h
  split at h
  · next hd =>
    cases h
    exact opc_of_decode_ok hd
  · cases h

/-- An instruction without operand cells is decoded from its opcode cell alone. -/
theorem decodedAt_of_operandless {s : State} {m : Opcode} {i : Instr}
    (hm : ∀ cells, withOperands m cells = some (i, cells)) (h : s.memRead (cellNo s.pc) = Config.opc m) :
    decodedAt s = .ok i := by
  simp [decodedAt, cellsAt, h, decode_opc_cons (hm _)]

/-! One step and the iterations after it (R78, R80) -/

theorem step_of_decodedAt {s : State} {i : Instr} (hr : s.running = true) (hv : validIndex s.pc = true)
    (hd : decodedAt s = .ok i) : step s = exec i (s.advance 1) := by
  simp [step, cycle, hr, fetch, consume_ok hv, hd]

theorem runFor_succ_of_step {s t : State} (hr : s.running = true) (h : step s = .next t) (n : Nat) :
    runFor (n + 1) s = runFor n t := by
  simp [runFor, hr, h]

/-! HLT and NOP (R118, R119) -/

theorem exec_hlt (s : State) : exec .hlt s = .next (s.setRunning false) := rfl

theorem exec_nop (s : State) : exec .nop s = .next s := rfl

/-- HLT alone clears a set flag without writing the latch. -/
theorem eq_hlt_of_exec_stops {i : Instr} {s t : State} (hr : s.running = true) (h : exec i s = .next t)
    (hrt : t.running = false) (hft : t.fault = none) : i = .hlt := by
  cases hf : faultOf i s with
  | some r =>
    rw [exec_of_faultOf_some hf] at h
    cases h
    simp at hft
  | none =>
    rw [exec_of_faultOf_none hf] at h
    obtain ⟨-, hrun⟩ := transition_control h
    by_contra hi
    simp [hrun, hi, hr] at hrt

/-- A step that ends a run with an empty latch executed HLT: the other three ways of a cycle fault or make no step. -/
theorem decodedAt_hlt_of_step_stops {s t : State} (h : step s = .next t) (hrt : t.running = false)
    (hft : t.fault = none) : validIndex s.pc = true ∧ decodedAt s = .ok .hlt := by
  rw [step_eq_cycle] at h
  obtain ⟨-, hc⟩ | ⟨-, -, hc⟩ | ⟨hr, hv, i, hd, hc⟩ | ⟨-, -, e, -, hc⟩ := cycle_cases Config.lenientUnknownOpcode s <;>
    rw [hc] at h
  · cases h
  · cases h
    simp at hft
  · obtain rfl := eq_hlt_of_exec_stops (s := s.advance 1) hr h hrt hft
    exact ⟨hv, hd⟩
  · cases h
    simp at hft

/-- Settles O39: the opcode cell of HLT decides its step, the run loop stops where `running` is false, and no other way of a
cycle clears the flag with the latch empty. -/
theorem hltStopsTheCore : Obligations.HltStopsTheCore := by
  unfold Obligations.HltStopsTheCore
  refine ⟨exec_hlt, fun s hr hv hm => ?_, fun s t h hrt hft => ?_⟩
  · have hstep : step s = .next ((s.advance 1).setRunning false) := by
      rw [step_of_decodedAt hr hv (decodedAt_of_operandless (fun _ => rfl) hm), exec_hlt]
    refine ⟨hstep, fun n => ?_⟩
    obtain ⟨-, hstop⟩ := no_step_of_not_running (s := (s.advance 1).setRunning false) rfl
    rw [runFor_succ_of_step hr hstep]
    exact hstop n
  · obtain ⟨hv, hd⟩ := decodedAt_hlt_of_step_stops h hrt hft
    exact ⟨hv, memRead_pc_of_decodedAt hd⟩

/-- Settles O40: the step at a NOP cell is its opcode fetch. -/
theorem nopOnlyAdvances : Obligations.NopOnlyAdvances := by
  unfold Obligations.NopOnlyAdvances
  refine ⟨exec_nop, fun s hr hv hm => ⟨s.advance 1, ?_, rfl, toInt_succ hv⟩⟩
  rw [step_of_decodedAt hr hv (decodedAt_of_operandless (fun _ => rfl) hm), exec_nop]

end Sys2Proof.Machine
end

section
/-! Decoding: what the decoder reads, and which cells are opcodes (R52 to R64). -/
namespace Sys2Proof.Machine

/-! Operand cells (R53, R55) -/

/-- The decoder takes as operands exactly the operand cells of the instruction it reads. -/
theorem operands_of_withOperands {m : Opcode} {cells rest : List Word} {i : Instr}
    (h : withOperands m cells = some (i, rest)) : cells = i.operands ++ rest := by
  cases m with
  | ret | hlt | nop => cases h; rfl
  | push | pop | inc | dec | jmp | jz | jnz | call | not | int =>
    match cells with
    | [] => cases h
    | _ :: _ => cases h; rfl
  | _ =>
    match cells with
    | [] | [_] => cases h
    | _ :: _ :: _ => cases h; rfl

theorem withOperands_operands (i : Instr) (rest : List Word) :
    withOperands i.opcode (i.operands ++ rest) = some (i, rest) := by
  cases i <;> rfl

theorem withOperands_of_decode {m : Opcode} {cells : List Word} {r : Instr × List Word}
    (h : decode (Config.opc m :: cells) = .ok r) : withOperands m cells = some r := by
  simp only [decode, opcodeOf_opc] at h
  split at h
  · cases h
  · next hw => cases h; exact hw

/-- Settles O1: the opcode cell is that of the instruction read, and behind it `withOperands` takes the operand cells alone. -/
theorem decodeEncodeAgree : Obligations.DecodeEncodeAgree := by
  unfold Obligations.DecodeEncodeAgree
  refine fun cells rest i => ⟨fun h => ?_, fun h => ?_⟩
  · cases cells with
    | nil => cases h
    | cons op cells =>
      obtain rfl := opc_of_decode_ok h
      rw [operands_of_withOperands (withOperands_of_decode h)]
      rfl
  · rw [h]
    exact decode_opc_cons (withOperands_operands i rest)

/-! Opcode cells (R59, R61) -/

theorem opcodeOf_eq_some_iff (v : Word) (m : Opcode) : opcodeOf v = some m ↔ v = Config.opc m :=
  ⟨opc_of_opcodeOf, fun h => by rw [h, opcodeOf_opc]⟩

/-- The number of a mnemonic is its place in the table (R59). -/
theorem getElem?_all_iff (n : Nat) (m : Opcode) : Opcode.all[n]? = some m ↔ (Config.opc m).toNat = n := by
  have number_at_place : ∀ n : Fin 26, (Config.opc Opcode.all[n]).toNat = n := by decide
  constructor
  · intro h
    obtain ⟨hn, rfl⟩ := List.getElem?_eq_some_iff.mp h
    exact number_at_place ⟨n, hn⟩
  · rintro rfl
    cases m <;> rfl

/-- On signed values: an opcode is not negative, and its value is the place of its mnemonic. -/
theorem opcodeOf_eq_some_iff_place (v : Word) (m : Opcode) :
    opcodeOf v = some m ↔ 0 ≤ v.toInt ∧ Opcode.all[v.toInt.toNat]? = some m := by
  rw [opcodeOf_eq_some_iff, getElem?_all_iff]
  constructor
  · rintro rfl
    cases m <;> decide
  · rintro ⟨h0, h⟩
    refine BitVec.eq_of_toNat_eq ?_
    rw [h]
    rw [BitVec.toInt_eq_toNat_cond] at h0 ⊢
    split at h0 <;> omega

/-- Settles O2: a value is no opcode where it has no place in the table of 26. -/
theorem opcodeNumbers : Obligations.OpcodeNumbers := by
  unfold Obligations.OpcodeNumbers
  refine ⟨fun v => ?_, opcodeOf_eq_some_iff_place⟩
  have hsome : (opcodeOf v).isSome ↔ 0 ≤ v.toInt ∧ v.toInt.toNat < 26 := by
    simp only [Option.isSome_iff_exists, opcodeOf_eq_some_iff_place, exists_and_left]
    rw [← Option.isSome_iff_exists, isSome_getElem?]
    rfl
  rw [← Option.not_isSome_iff_eq_none, hsome]
  omega

/-- Settles O3: each list is the encoding of its instruction and a rest, and 99 and -1 have no place in the table. -/
theorem decodesWrittenCells : Obligations.DecodesWrittenCells := by
  unfold Obligations.DecodesWrittenCells
  exact ⟨rfl, rfl, rfl, rfl, rfl, rfl, rfl, rfl, rfl, rfl, rfl⟩

end Sys2Proof.Machine
end

section
/-! The operand checks one by one, the step's next states, and the invariant they keep (R62, R70 to R79, R131). -/
namespace Sys2Proof.Machine

/-! One operand (R71 to R73) -/

/-- The fetch of the operand cell fails. -/
theorem operandFault_cons_badPc {op pc : Word} {before : List Word} {k : OperandKind} {v : Word}
    {rest : List (OperandKind × Word)} (h : validIndex pc = false) :
    operandFault op pc before ((k, v) :: rest) = some ⟨.outOfBounds, some op, pc, before, pc⟩ := by
  simp [operandFault, h]

/-- The range check of the fetched operand fails. -/
theorem operandFault_cons_badOperand {op pc : Word} {before : List Word} {k : OperandKind} {v : Word}
    {rest : List (OperandKind × Word)} {f : FaultKind} (h : validIndex pc = true) (hf : operandCheck k v = some f) :
    operandFault op pc before ((k, v) :: rest) = some ⟨f, some op, pc + 1, before ++ [v], v⟩ := by
  cases k with
  | reg | addr =>
    obtain ⟨hbad, rfl⟩ : _ = false ∧ _ = f := by simpa [operandCheck] using hf
    simp [operandFault, h, hbad]
  | port | code => cases hf

/-- The operand passes. -/
theorem operandFault_cons_ok {op pc : Word} {before : List Word} {k : OperandKind} {v : Word}
    {rest : List (OperandKind × Word)} (h : validIndex pc = true) (hv : operandCheck k v = none) :
    operandFault op pc before ((k, v) :: rest) = operandFault op (pc + 1) (before ++ [v]) rest := by
  cases k <;> simp_all [operandFault, operandCheck]

/-- The three ways of an operand. -/
theorem operand_cases (pc : Word) (k : OperandKind) (v : Word) :
    validIndex pc = false ∨ (validIndex pc = true ∧ ∃ f, operandCheck k v = some f) ∨
      (validIndex pc = true ∧ operandCheck k v = none) := by
  cases validIndex pc <;> cases operandCheck k v <;> simp

/-- A failing operand check names the operand as its kind says (R123, R124). -/
theorem operandCheck_consistent {k : OperandKind} {v : Word} {f : FaultKind} (h : operandCheck k v = some f)
    (op pc : Word) (before : List Word) :
    (FaultRecord.mk f (some op) pc (before ++ [v]) v).consistent = true := by
  cases k with
  | reg | addr =>
    obtain ⟨hbad, rfl⟩ : _ = false ∧ _ = f := by simpa [operandCheck] using h
    simp [FaultRecord.consistent, hbad]
  | port | code => cases h

/-- Every record of the operand checks is consistent (R27, R132). -/
theorem operandFault_consistent {op pc : Word} {before : List Word} {ops : List (OperandKind × Word)} {r : FaultRecord}
    (h : operandFault op pc before ops = some r) : r.consistent = true := by
  induction ops generalizing pc before with
  | nil => cases h
  | cons o rest ih =>
    obtain ⟨k, v⟩ := o
    obtain hpc | ⟨hpc, f, hf⟩ | ⟨hpc, hv⟩ := operand_cases pc k v
    · rw [operandFault_cons_badPc hpc] at h
      cases h
      simp [FaultRecord.consistent, hpc]
    · rw [operandFault_cons_badOperand hpc hf] at h
      cases h
      exact operandCheck_consistent hf op _ before
    · rw [operandFault_cons_ok hpc hv] at h
      exact ih h

/-- Every operand passes its check where no operand faults. -/
theorem operandCheck_of_operandFault_none {op pc : Word} {before : List Word} {ops : List (OperandKind × Word)}
    (h : operandFault op pc before ops = none) : ∀ o ∈ ops, operandCheck o.1 o.2 = none := by
  induction ops generalizing pc before with
  | nil => simp
  | cons o rest ih =>
    obtain ⟨k, v⟩ := o
    obtain hpc | ⟨hpc, f, hf⟩ | ⟨hpc, hv⟩ := operand_cases pc k v
    · simp [operandFault_cons_badPc hpc] at h
    · simp [operandFault_cons_badOperand hpc hf] at h
    · rw [operandFault_cons_ok hpc hv] at h
      simpa [hv] using ih h

/-! Well-formed instructions (R56) -/

open Laws in
/-- The layout of every instruction. -/
theorem layout : ∀ i : Instr, Layout.Statement i
  | .load a b => Layout.load a b | .store a b => Layout.store a b | .mov a b => Layout.mov a b
  | .push a => Layout.push a | .pop a => Layout.pop a
  | .add a b => Layout.add a b | .sub a b => Layout.sub a b | .mul a b => Layout.mul a b
  | .div a b => Layout.div a b | .inc a => Layout.inc a | .dec a => Layout.dec a
  | .jmp a => Layout.jmp a | .jz a => Layout.jz a | .jnz a => Layout.jnz a
  | .call a => Layout.call a | .ret => Layout.ret
  | .cmp a b => Layout.cmp a b | .and a b => Layout.and a b | .or a b => Layout.or a b
  | .xor a b => Layout.xor a b | .not a => Layout.not a
  | .int a => Layout.int a | .hlt => Layout.hlt | .nop => Layout.nop
  | .inp a b => Layout.inp a b | .out a b => Layout.out a b

theorem wellFormed_iff (i : Instr) :
    WellFormed i = true ↔ ∀ o ∈ i.opcode.operandKinds.zip i.operands, operandCheck o.1 o.2 = none := by
  obtain ⟨-, -, h⟩ := layout i
  exact h

theorem wellFormed_of_faultOf_none {i : Instr} {s : State} (h : faultOf i s = none) : WellFormed i = true :=
  (wellFormed_iff i).mpr (operandCheck_of_operandFault_none h)

theorem faultOf_none_of_wellFormed {i : Instr} {s : State} (hw : WellFormed i = true)
    (hroom : CanFetch i.operands.length s) : faultOf i s = none :=
  operandFault_none (by simpa [operands_length] using hroom) ((wellFormed_iff i).mp hw)

/-! Decoding at `pc` (R59, R64) -/

/-- The cells read ahead are enough for every instruction. -/
theorem decodedAt_of_opcodeOf_some {s : State} {m : Opcode} (h : opcodeOf (s.memRead (cellNo s.pc)) = some m) :
    ∃ i, decodedAt s = .ok i ∧ i.opcode = m := by
  have enough : ∀ a b : Word, ∃ i rest, withOperands m [a, b] = some (i, rest) := fun a b => by
    cases m <;> exact ⟨_, _, rfl⟩
  obtain ⟨i, rest, hw⟩ := enough (s.memRead (cellNo s.pc + 1)) (s.memRead (cellNo s.pc + 2))
  exact ⟨i, by simp [decodedAt, cellsAt, opc_of_opcodeOf h, decode_opc_cons hw], opcode_of_withOperands hw⟩

theorem opcodeOf_of_decodedAt_ok {s : State} {i : Instr} (h : decodedAt s = .ok i) :
    opcodeOf (s.memRead (cellNo s.pc)) = some i.opcode := by
  rw [memRead_pc_of_decodedAt h, opcodeOf_opc]

/-- The cells at `pc` are refused for their opcode cell alone (R61). -/
theorem opcodeOf_of_decodedAt_error {s : State} {e : DecodeError} (h : decodedAt s = .error e) :
    opcodeOf (s.memRead (cellNo s.pc)) = none := by
  cases hm : opcodeOf (s.memRead (cellNo s.pc)) with
  | none => rfl
  | some m =>
    obtain ⟨i, hi, -⟩ := decodedAt_of_opcodeOf_some hm
    simp [hi] at h

/-! The step's next states (R78, R79) -/

theorem cycle_of_badPc {lenient : Bool} {s : State} (hr : s.running = true) (hv : validIndex s.pc = false) :
    cycle lenient s = .next (s.stopped ⟨.outOfBounds, none, s.pc, [], s.pc⟩) := by
  simp [cycle, hr, fetch, consume_bad hv, raise_eq_stopped, faultRecord, DecodeContext.fresh]

theorem cycle_of_decodedAt {lenient : Bool} {s : State} {i : Instr} (hr : s.running = true)
    (hv : validIndex s.pc = true) (hd : decodedAt s = .ok i) : cycle lenient s = exec i (s.advance 1) := by
  simp [cycle, hr, fetch, consume_ok hv, hd]

theorem cycle_of_unknown {lenient : Bool} {s : State} (hr : s.running = true) (hv : validIndex s.pc = true)
    (ho : opcodeOf (s.memRead (cellNo s.pc)) = none) :
    cycle lenient s = unknownOpcode lenient (s.memRead (cellNo s.pc)) (s.advance 1) := by
  cases hd : decodedAt s with
  | ok i => simp [opcodeOf_of_decodedAt_ok hd] at ho
  | error e => simp [cycle, hr, fetch, consume_ok hv, hd]

theorem unknownOpcode_strict (s : State) :
    unknownOpcode false (s.memRead (cellNo s.pc)) (s.advance 1) =
      .next (s.stopped ⟨.invalidOpcode, some (s.memRead (cellNo s.pc)), s.pc + 1, [], s.memRead (cellNo s.pc)⟩) := rfl

/-- The next states of a step of a running core, by the way the step goes. -/
inductive CycleNext (lenient : Bool) (s : State) : State → Prop where
  /-- the opcode fetch fails (R70) -/
  | badPc (hv : validIndex s.pc = false) :
    CycleNext lenient s (s.stopped ⟨.outOfBounds, none, s.pc, [], s.pc⟩)
  /-- the opcode cell is unknown (R77) -/
  | unknown (hl : lenient = false) (hv : validIndex s.pc = true) (ho : opcodeOf (s.memRead (cellNo s.pc)) = none) :
    CycleNext lenient s
      (s.stopped ⟨.invalidOpcode, some (s.memRead (cellNo s.pc)), s.pc + 1, [], s.memRead (cellNo s.pc)⟩)
  /-- the opcode cell is unknown and skipped (R62) -/
  | skipped (hl : lenient = true) (hv : validIndex s.pc = true) (ho : opcodeOf (s.memRead (cellNo s.pc)) = none) :
    CycleNext lenient s (s.advance 1)
  /-- an operand check fails (R75) -/
  | faulted (i : Instr) (r : FaultRecord) (hv : validIndex s.pc = true) (hd : decodedAt s = .ok i)
      (hf : faultOf i (s.advance 1) = some r) : CycleNext lenient s (s.stopped r)
  /-- the instruction completes (R76) -/
  | completed (i : Instr) (t : State) (hv : validIndex s.pc = true) (hd : decodedAt s = .ok i)
      (hf : faultOf i (s.advance 1) = none)
      (ht : transition i ((s.advance 1).advance i.operands.length) = .next t) : CycleNext lenient s t

theorem cycle_next {lenient : Bool} {s t : State} (h : cycle lenient s = .next t) :
    s.running = true ∧ CycleNext lenient s t := by
  obtain ⟨-, hc⟩ | ⟨hr, hv, -⟩ | ⟨hr, hv, i, hd, hc⟩ | ⟨hr, hv, e, he, hc⟩ := cycle_cases lenient s
  · simp [hc] at h
  · rw [cycle_of_badPc hr hv] at h
    cases h
    exact ⟨hr, .badPc hv⟩
  · rw [hc] at h
    cases hf : faultOf i (s.advance 1) with
    | some r =>
      rw [exec_of_faultOf_some hf] at h
      cases h
      exact ⟨hr, .faulted i r hv hd hf⟩
    | none =>
      rw [exec_of_faultOf_none hf] at h
      exact ⟨hr, .completed i t hv hd hf h⟩
  · rw [hc] at h
    have ho := opcodeOf_of_decodedAt_error he
    cases lenient
    · cases h
      exact ⟨hr, .unknown rfl hv ho⟩
    · cases h
      exact ⟨hr, .skipped rfl hv ho⟩

/-! The invariant -/

/-- A fault entry keeps the invariant where its record is consistent. -/
theorem inv_stopped {s : State} {r : FaultRecord} (hm : s.mem.wf = true) (hr : r.consistent = true) :
    Inv (s.stopped r) where
  mem := hm
  latch := nofun
  record := fun _ h => by cases h; exact ⟨hr, rfl⟩
  halted := fun _ h => by cases h

/-- No transition but STORE's touches memory (R37). -/
theorem transition_mem {i : Instr} {s t : State} (h : transition i s = .next t) :
    t.mem = s.mem ∨ ∃ reg addr, i = .store reg addr ∧ t.mem = s.mem.write (cellNo addr) (s.getReg (regNo reg)) := by
  cases i with
  | store reg addr => cases h; exact .inr ⟨reg, addr, rfl, rfl⟩
  | pop _ => obtain ⟨-, rfl⟩ | ⟨st, v, -, rfl⟩ := transition_pop_next h <;> exact .inl rfl
  | ret => obtain ⟨-, rfl⟩ | ⟨st, v, -, rfl⟩ := transition_ret_next h <;> exact .inl rfl
  | div _ _ => obtain rfl | ⟨v, rfl⟩ := transition_div_next h <;> exact .inl rfl
  | jz _ | jnz _ => cases h; left; split <;> rfl
  | inp _ _ => obtain ⟨v, p, -, rfl⟩ := transition_inp_next h; exact .inl rfl
  | _ => cases h; exact .inl rfl

/-- The address of a well-formed STORE lies inside memory, so its transition keeps the canonical form. -/
theorem transition_mem_wf {i : Instr} {s t : State} (h : transition i s = .next t) (hw : WellFormed i = true)
    (hm : s.mem.wf = true) : t.mem.wf = true := by
  obtain ht | ⟨reg, addr, rfl, ht⟩ := transition_mem h <;> rw [ht]
  · exact hm
  · have ha : validIndex addr = true := by simp_all [WellFormed]
    exact Memory.wf_write _ (cellNo_lt ha) hm

/-- Settles O50: a fault entry leaves a consistent record, any other next state keeps the empty latch of a running core, and
HLT alone clears the flag there. -/
theorem stepKeepsTheInvariant : Obligations.StepKeepsTheInvariant := by
  unfold Obligations.StepKeepsTheInvariant
  intro lenient s t hi h
  obtain ⟨hr, hn⟩ := cycle_next h
  have hl := hi.latch hr
  cases hn with
  | badPc hv => exact inv_stopped hi.mem (by simp [FaultRecord.consistent, hv])
  | unknown _ _ ho => exact inv_stopped hi.mem (by simp [FaultRecord.consistent, ho])
  | skipped _ _ _ => exact ⟨hi.mem, fun _ => hl, by simp [hl], by simp [hr]⟩
  | faulted i r _ _ hf => exact inv_stopped hi.mem (operandFault_consistent hf)
  | completed i _ hv hd hf ht =>
    obtain ⟨hfault, hrun⟩ := transition_control ht
    have hfault' : t.fault = none := hfault.trans hl
    refine ⟨transition_mem_wf ht (wellFormed_of_faultOf_none hf) hi.mem, fun _ => hfault', by simp [hfault'],
      fun hstop _ => ?_⟩
    obtain rfl : i = .hlt := by
      by_contra hne
      simp [hrun, hne, hr] at hstop
    obtain rfl : (s.advance 1).setRunning false = t := by
      cases ht
      simp [Instr.operands]
    have hpc : ((s.advance 1).setRunning false).pc - 1 = s.pc := by simp
    rw [hpc]
    exact ⟨hv, memRead_pc_of_decodedAt hd⟩

end Sys2Proof.Machine
end

section
/-! What each instruction may change: registers, memory, stack, history and control state (R14, R16, R21, R31, R37). -/
namespace Sys2Proof.Machine

/-! The fields a transition writes -/

/-- An instruction's next state: a fault entry, or its transition behind the operands. -/
theorem exec_next {i : Instr} {s t : State} (h : exec i s = .next t) :
    (∃ r, faultOf i s = some r ∧ t = s.stopped r) ∨
      (faultOf i s = none ∧ transition i (s.advance i.operands.length) = .next t) := by
  cases hf : faultOf i s with
  | some r =>
    rw [exec_of_faultOf_some hf] at h
    cases h
    exact .inl ⟨r, rfl, rfl⟩
  | none =>
    rw [exec_of_faultOf_none hf] at h
    exact .inr ⟨rfl, h⟩

theorem exec_next_of_faultOf_none {i : Instr} {s t : State} (h : exec i s = .next t) (hf : faultOf i s = none) :
    transition i (s.advance i.operands.length) = .next t := by
  rw [← exec_of_faultOf_none hf, h]

theorem eq_stopped_of_faultOf_isSome {i : Instr} {s t : State} (h : exec i s = .next t)
    (hf : (faultOf i s).isSome = true) : ∃ r, t = s.stopped r := by
  obtain ⟨r, -, ht⟩ | ⟨hnone, -⟩ := exec_next h
  · exact ⟨r, ht⟩
  · simp [hnone] at hf

/-- The table of R14. -/
theorem transition_getReg {i : Instr} {s t : State} {q : RegNo} (h : transition i s = .next t)
    (hq : q ∉ regsWritten i) : t.getReg q = s.getReg q := by
  have other : ∀ {r : RegNo} (u : State) (v : Word), regsWritten i = [r] → (u.setReg r v).getReg q = u.getReg q :=
    fun u v hi => getReg_setReg_other u (by simpa [hi] using hq) v
  cases i with
  | store _ _ | push _ | jmp _ | call _ | int _ | hlt | nop | out _ _ => cases h; rfl
  | jz _ | jnz _ => cases h; split <;> rfl
  | ret => obtain ⟨-, rfl⟩ | ⟨st, v, -, rfl⟩ := transition_ret_next h <;> rfl
  | pop _ =>
    obtain ⟨-, rfl⟩ | ⟨st, v, -, rfl⟩ := transition_pop_next h
    · rfl
    · exact other _ v rfl
  | div _ _ =>
    obtain rfl | ⟨v, rfl⟩ := transition_div_next h
    · rfl
    · exact other _ v rfl
  | inp _ _ => obtain ⟨v, p, -, rfl⟩ := transition_inp_next h; exact other _ v rfl
  | _ => cases h; exact other _ _ rfl

/-- The stack's effects at its top (R21). -/
theorem transition_stack {i : Instr} {s t : State} (h : transition i s = .next t) : t.stack = stackAfter i s := by
  cases i with
  | pop _ => obtain ⟨hs, rfl⟩ | ⟨st, v, hs, rfl⟩ := transition_pop_next h <;> simp [stackAfter, hs]
  | ret => obtain ⟨hs, rfl⟩ | ⟨st, v, hs, rfl⟩ := transition_ret_next h <;> simp [stackAfter, hs]
  | div _ _ => obtain rfl | ⟨v, rfl⟩ := transition_div_next h <;> rfl
  | jz _ | jnz _ => cases h; split <;> rfl
  | inp _ _ => obtain ⟨v, p, -, rfl⟩ := transition_inp_next h; rfl
  | _ => cases h; rfl

/-- The one entry of a transaction (R31). -/
theorem transition_io {i : Instr} {s t : State} (h : transition i s = .next t) :
    t.io = s.io ++ (ioEventOf i s).toList := by
  cases i with
  | pop _ => obtain ⟨-, rfl⟩ | ⟨st, v, -, rfl⟩ := transition_pop_next h <;> simp [ioEventOf]
  | ret => obtain ⟨-, rfl⟩ | ⟨st, v, -, rfl⟩ := transition_ret_next h <;> simp [ioEventOf]
  | div _ _ => obtain rfl | ⟨v, rfl⟩ := transition_div_next h <;> simp [ioEventOf]
  | jz _ | jnz _ => cases h; split <;> simp [ioEventOf]
  | inp _ _ => obtain ⟨v, p, ha, rfl⟩ := transition_inp_next h; simp [ioEventOf, ha]
  | _ => cases h; simp [ioEventOf]

/-- The input interface is IN's alone (R116). -/
theorem transition_provider {i : Instr} {s t : State} (h : transition i s = .next t)
    (hi : ∀ reg port, i ≠ .inp reg port) : t.provider = s.provider := by
  cases i with
  | pop _ => obtain ⟨-, rfl⟩ | ⟨st, v, -, rfl⟩ := transition_pop_next h <;> rfl
  | ret => obtain ⟨-, rfl⟩ | ⟨st, v, -, rfl⟩ := transition_ret_next h <;> rfl
  | div _ _ => obtain rfl | ⟨v, rfl⟩ := transition_div_next h <;> rfl
  | jz _ | jnz _ => cases h; split <;> rfl
  | inp reg port => exact absurd rfl (hi reg port)
  | _ => cases h; rfl

@[simp] theorem ioEventOf_advance (i : Instr) (s : State) (n : Nat) : ioEventOf i (s.advance n) = ioEventOf i s := by
  cases i <;> rfl

/-- The sink is sent every entry but IN's (R115). -/
theorem filterMap_toSink_ioEventOf (i : Instr) (s : State) :
    (ioEventOf i s).toList.filterMap IoEvent.toSink = sinkEventOf i s := by
  cases i with
  | inp _ port => cases ha : s.provider.answer port <;> simp [ioEventOf, ha, IoEvent.toSink, sinkEventOf]
  | _ => rfl

/-! The frames, over all 26 instructions -/

/-- Settles O42: a fault entry writes no register, a transition those of the table. -/
theorem registersWrittenAreTheTables : Obligations.RegistersWrittenAreTheTables := by
  unfold Obligations.RegistersWrittenAreTheTables
  intro i s t h q hq
  obtain ⟨r, -, rfl⟩ | ⟨-, ht⟩ := exec_next h
  · rfl
  · simpa using transition_getReg ht hq

/-- Settles O43: STORE alone writes memory, and a canonical list reads as before at every other cell. -/
theorem memoryWrittenByStoreOnly : Obligations.MemoryWrittenByStoreOnly := by
  unfold Obligations.MemoryWrittenByStoreOnly
  intro i s t hm h a ha
  obtain ⟨r, -, rfl⟩ | ⟨-, ht⟩ := exec_next h
  · rfl
  · obtain hmem | ⟨reg, addr, rfl, hmem⟩ := transition_mem ht <;> rw [memRead_eq, hmem]
    · rfl
    · have hne : a ≠ cellNo addr := by simpa [storeTarget, eq_comm] using ha
      exact (Memory.read_write hm).trans (if_neg hne)

/-- Settles O44. -/
theorem stackChangesAtTheTopOnly : Obligations.StackChangesAtTheTopOnly := by
  unfold Obligations.StackChangesAtTheTopOnly
  refine fun i s t h => ⟨fun hf => transition_stack (exec_next_of_faultOf_none h hf), fun hf => ?_⟩
  obtain ⟨r, rfl⟩ := eq_stopped_of_faultOf_isSome h hf
  rfl

/-- Settles O45. -/
theorem historyGrowsByOneTransaction : Obligations.HistoryGrowsByOneTransaction := by
  unfold Obligations.HistoryGrowsByOneTransaction
  refine fun i s t h => ⟨fun hf => ?_, fun hf => ?_⟩
  · simpa using transition_io (exec_next_of_faultOf_none h hf)
  · obtain ⟨r, rfl⟩ := eq_stopped_of_faultOf_isSome h hf
    rfl

/-- Settles O41: the sink's events are the entries of the history but IN's. -/
theorem sinkReceivesOutAndInt : Obligations.SinkReceivesOutAndInt := by
  unfold Obligations.SinkReceivesOutAndInt
  intro i s t h hf
  obtain ⟨hio, -⟩ := historyGrowsByOneTransaction i s t h
  rw [sinkEvents, hio hf, List.filterMap_append, filterMap_toSink_ioEventOf, sinkEvents]

/-- Settles O46. -/
theorem controlStateKeptByInstructions : Obligations.ControlStateKeptByInstructions := by
  unfold Obligations.ControlStateKeptByInstructions
  intro i s t h hf
  have ht := exec_next_of_faultOf_none h hf
  obtain ⟨hfault, hrun⟩ := transition_control ht
  exact ⟨hfault, hrun, fun hi => by rw [transition_provider ht hi, advance_provider]⟩

end Sys2Proof.Machine
end

section
/-! The fetch, the step, the run loop and the faults (R62, R68 to R83, R130 to R135). -/
namespace Sys2Proof.Machine

/-! The fetch and the step -/

/-- Settles O4, by the two outcomes of the check every fetch makes. -/
theorem fetchReadsThenAdvances : Obligations.FetchReadsThenAdvances := by
  unfold Obligations.FetchReadsThenAdvances
  exact fun c s k => ⟨fun hv => ⟨s.advance 1, consume_ok hv, rfl, toInt_succ hv⟩, fun hv => consume_bad hv⟩

/-- Settles O5. -/
theorem stepRunsDecodedInstruction : Obligations.StepRunsDecodedInstruction := by
  unfold Obligations.StepRunsDecodedInstruction
  exact fun lenient s i hr hv hd => ⟨cycle_of_decodedAt hr hv hd, step_of_decodedAt hr hv hd⟩

theorem step_of_unknown {s : State} (hr : s.running = true) (hv : validIndex s.pc = true)
    (ho : opcodeOf (s.memRead (cellNo s.pc)) = none) :
    step s =
      .next (s.stopped ⟨.invalidOpcode, some (s.memRead (cellNo s.pc)), s.pc + 1, [], s.memRead (cellNo s.pc)⟩) := by
  rw [step_eq_cycle, cycle_of_unknown hr hv ho]
  exact unknownOpcode_strict s

/-- Settles O6. -/
theorem unknownOpcodeFaultsOrIsSkipped : Obligations.UnknownOpcodeFaultsOrIsSkipped := by
  unfold Obligations.UnknownOpcodeFaultsOrIsSkipped
  exact fun s hr hv ho => ⟨step_of_unknown hr hv ho, rfl, cycle_of_unknown hr hv ho⟩

/-- Settles O7: the other three ways of a cycle do not look at the flag. -/
theorem leniencyConcernsUnknownOpcodesOnly : Obligations.LeniencyConcernsUnknownOpcodesOnly := by
  unfold Obligations.LeniencyConcernsUnknownOpcodesOnly
  intro s hne
  obtain ⟨hr, hc⟩ | ⟨hr, hv, hc⟩ | ⟨hr, hv, i, hd, hc⟩ | ⟨hr, hv, e, he, -⟩ := cycle_cases true s
  · exact absurd (hc.trans ((no_step_of_not_running hr).1 false).symm) hne
  · exact absurd ((cycle_of_badPc hr hv).trans (cycle_of_badPc hr hv).symm) hne
  · exact absurd (hc.trans (cycle_of_decodedAt hr hv hd).symm) hne
  · exact ⟨hr, hv, opcodeOf_of_decodedAt_error he⟩

/-- Settles O9. -/
theorem stoppedCoreHasNoStep : Obligations.StoppedCoreHasNoStep := by
  unfold Obligations.StoppedCoreHasNoStep
  intro s hr
  obtain ⟨hstep, hrun⟩ := no_step_of_not_running hr
  exact ⟨hstep, hstep _, hrun, fun index v => by simp [hostWrite, hr], rfl⟩

/-! The operand fetches of the pseudocode (R71 to R74) -/

/-- `n` cells from index `a` on. -/
def cellsFrom (m : Memory) : Nat → Nat → List Word
  | _, 0 => []
  | a, n + 1 => m.read a :: cellsFrom m (a + 1) n

theorem cellNo_advance_one {s : State} (h : validIndex s.pc = true) : cellNo (s.advance 1).pc = cellNo s.pc + 1 := by
  have hlt := (validIndex_iff_toNat s.pc).mp h
  rw [Config.memCap] at hlt
  simp [cellNo]
  omega

/-- A decoded instruction's operands are the cells after its opcode cell (R55). -/
theorem operands_of_decodedAt {s : State} {i : Instr} (h : decodedAt s = .ok i) :
    i.operands = cellsFrom s.mem (cellNo s.pc + 1) i.opcode.operandKinds.length := by
  rw [decodedAt] at h
  split at h
  · next rest hd =>
    cases h
    have hcells : cellsFrom s.mem (cellNo s.pc + 1) 2 = i.operands ++ rest :=
      (List.cons.inj ((decodeEncodeAgree _ _ _).mp hd)).2
    have htake : ∀ m : Opcode, cellsFrom s.mem (cellNo s.pc + 1) m.operandKinds.length =
        (cellsFrom s.mem (cellNo s.pc + 1) 2).take m.operandKinds.length := fun m => by cases m <;> rfl
    rw [htake, hcells, ← operands_length, List.take_left]
  · cases h

/-- Fetching operand by operand finds what the checks on the cells read ahead find. -/
theorem fetchEach_eq (op : Word) (kinds : List OperandKind) (got : List Word) (s : State) :
    fetchEach op kinds got s =
      match operandFault op s.pc got (kinds.zip (cellsFrom s.mem (cellNo s.pc) kinds.length)) with
      | some r => .inl (s.stopped r)
      | none => .inr (got ++ cellsFrom s.mem (cellNo s.pc) kinds.length, s.advance kinds.length) := by
  induction kinds generalizing got s with
  | nil => simp [fetchEach, operandFault, cellsFrom]
  | cons k kinds ih =>
    simp only [List.length_cons, cellsFrom, List.zip_cons_cons]
    obtain hpc | ⟨hpc, f, hf⟩ | ⟨hpc, hv⟩ := operand_cases s.pc k (s.mem.read (cellNo s.pc))
    · simp [operandFault_cons_badPc hpc, fetchEach, hpc]
    · rw [operandFault_cons_badOperand hpc hf]
      cases k with
      | reg | addr =>
        obtain ⟨hbad, rfl⟩ : _ = false ∧ _ = f := by simpa [operandCheck] using hf
        simp [fetchEach, hpc, hbad, memRead_eq, stopped_setPc]
      | port | code => cases hf
    · have hstep : fetchEach op (k :: kinds) got s =
          fetchEach op kinds (got ++ [s.mem.read (cellNo s.pc)]) (s.advance 1) := by
        cases k with
        | reg | addr =>
          simp only [operandCheck, ite_eq_left_iff, reduceCtorEq, imp_false, not_not] at hv
          simp [fetchEach, hpc, hv, memRead_eq, State.advance]
        | port | code => simp [fetchEach, hpc, memRead_eq, State.advance]
      rw [operandFault_cons_ok hpc hv, hstep, ih, cellNo_advance_one hpc, advance_advance, Nat.add_comm 1,
        List.append_assoc]
      rfl

/-- For the instruction at `pc` the fetches find its operands, or its fault. -/
theorem fetchEach_of_decodedAt {s : State} {i : Instr} (hv : validIndex s.pc = true) (hd : decodedAt s = .ok i) :
    fetchEach (Config.opc i.opcode) i.opcode.operandKinds [] (s.advance 1) =
      match faultOf i (s.advance 1) with
      | some r => .inl ((s.advance 1).stopped r)
      | none => .inr (i.operands, (s.advance 1).advance i.operands.length) := by
  have hops := operands_of_decodedAt hd
  rw [fetchEach_eq, cellNo_advance_one hv, advance_mem, ← hops, faultOf, operands_length]
  rfl

/-- Settles O8: both readings of the operands find the same fault, or none and the same operands. -/
theorem operandsFetchedOneByOne : Obligations.OperandsFetchedOneByOne := by
  unfold Obligations.OperandsFetchedOneByOne
  intro lenient s m hr hv hm
  obtain ⟨i, hd, rfl⟩ := decodedAt_of_opcodeOf_some hm
  have hcycle := cycle_of_decodedAt (lenient := lenient) hr hv hd
  rw [fetchEach_of_decodedAt hv hd]
  cases hf : faultOf i (s.advance 1) with
  | some r =>
    refine ⟨?_, nofun⟩
    rintro t ⟨⟩
    rw [hcycle, exec_of_faultOf_some hf]
  | none =>
    refine ⟨nofun, ?_⟩
    rintro ops u ⟨⟩
    exact ⟨i, rfl, rfl, wellFormed_of_faultOf_none hf, hf, hcycle, advance_advance s _ _⟩

/-! The ends of a step and the run loop (R79 to R84) -/

/-- Only IN has no next state, where the provider never answers (R84). -/
theorem transition_next_or_waits (i : Instr) (s : State) :
    (∃ t, transition i s = .next t) ∨
      ∃ reg port, i = .inp reg port ∧ s.provider.hasAnswer = false ∧ transition i s = .fault .inputNotSupplied := by
  cases i with
  | pop _ | ret =>
    left
    obtain ⟨-, hp⟩ | ⟨st, v, -, hp⟩ := pop_cases s <;> exact ⟨_, by rw [transition, hp]⟩
  | div _ _ => left; rw [transition]; split <;> exact ⟨_, rfl⟩
  | inp reg port =>
    have hanswer := answer_isSome s.provider port
    cases ha : s.provider.answer port with
    | some a => exact .inl ⟨_, by rw [transition, ha]⟩
    | none => exact .inr ⟨reg, port, rfl, by simpa [ha] using hanswer.symm, by rw [transition, ha]⟩
  | _ => exact .inl ⟨_, rfl⟩

/-- The cells of a decoded instruction whose operands all pass are inside memory. -/
theorem canFetch_of_operands {s : State} {n : Nat} (hv : validIndex s.pc = true) (h : CanFetch n (s.advance 1)) :
    CanFetch (n + 1) s := by
  obtain ⟨-, hn⟩ := h
  have hp1 : (s.advance 1).pc.toInt = s.pc.toInt + 1 := toInt_succ hv
  exact ⟨((validIndex_iff _).mp hv).1, by push_cast; omega⟩

/-- Settles O10, by the four ways of a cycle: a decoded instruction faults, completes, or is an IN that waits. -/
theorem stepEndsInOneOfThreeWays : Obligations.StepEndsInOneOfThreeWays := by
  unfold Obligations.StepEndsInOneOfThreeWays
  intro s
  obtain ⟨hr, hc⟩ | ⟨hr, hv, -⟩ | ⟨hr, hv, i, hd, hc⟩ | ⟨hr, hv, e, he, -⟩ := cycle_cases Config.lenientUnknownOpcode s
  · exact .inr (.inr (.inl ⟨hr, hc⟩))
  · exact .inr (.inl ⟨hr, _, cycle_of_badPc hr hv⟩)
  · rw [← step_eq_cycle] at hc
    cases hf : faultOf i (s.advance 1) with
    | some r => exact .inr (.inl ⟨hr, r, hc.trans (exec_of_faultOf_some hf)⟩)
    | none =>
      rw [exec_of_faultOf_none hf] at hc
      obtain ⟨t, ht⟩ | ⟨reg, port, rfl, hnone, ht⟩ := transition_next_or_waits i ((s.advance 1).advance i.operands.length)
      · obtain ⟨hfault, hrun⟩ := transition_control ht
        refine .inl ⟨hr, t, hc.trans ht, hfault, ?_⟩
        by_cases hi : i = .hlt
        · exact .inr (by rw [hd, hi])
        · exact .inl (by simp [hrun, hi, hr])
      · have hreg : validReg reg = true := by simpa [WellFormed] using wellFormed_of_faultOf_none hf
        have hroom := canFetch_of_operands hv (canFetch_of_faultOf_none (canFetch_zero_advance_one hv) hf)
        exact .inr (.inr (.inr ⟨reg, port, hr, hv, hd, hreg, hroom, hnone, hc.trans ht⟩))
  · exact .inr (.inl ⟨hr, _, step_of_unknown hr hv (opcodeOf_of_decodedAt_error he)⟩)

theorem runFor_add {m n : Nat} {s t : State} (h : runFor m s = .next t) : runFor (m + n) s = runFor n t := by
  induction m generalizing s with
  | zero => cases h; rw [Nat.zero_add]
  | succ m ih =>
    rw [Nat.add_right_comm]
    by_cases hr : s.running = true
    · cases hs : step s with
      | next u =>
        rw [runFor_succ_of_step hr hs] at h ⊢
        exact ih h
      | fault r => simp [runFor, hr, hs] at h
      | refused r => simp [runFor, hr, hs] at h
    · obtain ⟨-, hstop⟩ := no_step_of_not_running (s := s) (by simpa using hr)
      rw [hstop] at h
      cases h
      rw [hstop, hstop]

/-- Settles O11. -/
theorem runIsRepeatedSteps : Obligations.RunIsRepeatedSteps := by
  unfold Obligations.RunIsRepeatedSteps
  exact ⟨fun m n s t => runFor_add, fun s t hr h => runFor_succ_of_step hr h 0⟩

/-! Faults (R75, R131 to R135) -/

/-- From an empty latch, a step that leaves a record was a fault entry. -/
theorem eq_stopped_of_cycle {lenient : Bool} {s t : State} {r : FaultRecord} (hl : s.fault = none)
    (h : cycle lenient s = .next t) (hr : t.fault = some r) : t = s.stopped r := by
  obtain ⟨-, hn⟩ := cycle_next h
  cases hn with
  | badPc _ | unknown _ _ _ | faulted _ _ _ _ _ => cases hr; rfl
  | skipped _ _ _ => simp [hl] at hr
  | completed i _ _ _ _ ht => simp [(transition_control ht).1, hl] at hr

/-- Settles O12. -/
theorem faultingInstructionHasNoEffect : Obligations.FaultingInstructionHasNoEffect := by
  unfold Obligations.FaultingInstructionHasNoEffect
  refine ⟨fun i s r => exec_of_faultOf_some, fun lenient s t r hl h hr => ?_⟩
  rw [eq_stopped_of_cycle hl h hr]
  rfl

theorem sub_length_append (pc v : Word) (before : List Word) :
    pc + 1 - BitVec.ofNat 32 (before ++ [v]).length = pc - BitVec.ofNat 32 before.length := by
  rw [List.length_append, List.length_singleton, BitVec.ofNat_add]
  bv_omega

/-- A record's `pc` is as far on as its operands are many (R132). -/
theorem operandFault_pc {op pc : Word} {before : List Word} {ops : List (OperandKind × Word)} {r : FaultRecord}
    (h : operandFault op pc before ops = some r) :
    r.opcode = some op ∧ r.pc - BitVec.ofNat 32 r.operands.length = pc - BitVec.ofNat 32 before.length := by
  induction ops generalizing pc before with
  | nil => cases h
  | cons o rest ih =>
    obtain ⟨k, v⟩ := o
    obtain hpc | ⟨hpc, f, hf⟩ | ⟨hpc, hv⟩ := operand_cases pc k v
    · rw [operandFault_cons_badPc hpc] at h
      cases h
      exact ⟨rfl, rfl⟩
    · rw [operandFault_cons_badOperand hpc hf] at h
      cases h
      exact ⟨rfl, sub_length_append pc v before⟩
    · rw [operandFault_cons_ok hpc hv] at h
      rw [← sub_length_append pc v before]
      exact ih h

/-- The index of the opcode cell, computed from the record a step leaves (R132). -/
theorem opcodeIndex_of_cycle {lenient : Bool} {s t : State} {r : FaultRecord} (hl : s.fault = none)
    (h : cycle lenient s = .next t) (hr : t.fault = some r) :
    s.pc = if r.opcode.isSome then r.pc - BitVec.ofNat 32 r.operands.length - 1 else r.pc := by
  obtain ⟨-, hn⟩ := cycle_next h
  cases hn with
  | badPc _ | unknown _ _ _ => cases hr; simp
  | skipped _ _ _ => simp [hl] at hr
  | faulted i _ _ _ hf =>
    cases hr
    obtain ⟨hop, hpc⟩ := operandFault_pc hf
    simp [hop, hpc]
  | completed i _ _ _ _ ht => simp [(transition_control ht).1, hl] at hr

/-- The step of a decoded instruction an operand of which fails. -/
theorem step_of_faultOf {s : State} {i : Instr} {r : FaultRecord} (hr : s.running = true) (hv : validIndex s.pc = true)
    (hd : decodedAt s = .ok i) (hf : faultOf i (s.advance 1) = some r) : step s = .next (s.stopped r) := by
  rw [step_of_decodedAt hr hv hd, exec_of_faultOf_some hf]
  rfl

/-- Settles O13, row by row: which check fails first decides the record. -/
theorem faultRecordTable : Obligations.FaultRecordTable := by
  unfold Obligations.FaultRecordTable
  intro s hr
  refine ⟨cycle_of_badPc hr, ?_, ?_, fun t r => opcodeIndex_of_cycle⟩
  · rintro hv _ rfl ho
    exact step_of_unknown hr hv ho
  · rintro hv i _ k ks v vs hd rfl hkinds hops
    have hfault : faultOf i (s.advance 1) =
        operandFault (s.memRead (cellNo s.pc)) (s.pc + 1) [] ((k, v) :: ks.zip vs) := by
      rw [faultOf, memRead_pc_of_decodedAt hd, hkinds, hops]
      rfl
    have stops := fun r hf => step_of_faultOf (r := r) hr hv hd (hfault.trans hf)
    have h2 : s.pc + 1 + 1 = s.pc + 2 := by bv_omega
    have h3 : s.pc + 2 + 1 = s.pc + 3 := by bv_omega
    refine ⟨fun hv1 => stops _ (operandFault_cons_badPc hv1), fun hv1 f hf => ?_, ?_⟩
    · rw [← h2]
      exact stops _ (operandFault_cons_badOperand hv1 hf)
    · rintro hv1 hf1 k' v' rfl rfl
      have hsecond := operandFault_cons_ok (op := s.memRead (cellNo s.pc)) (before := []) (rest := [(k', v')]) hv1 hf1
      rw [h2] at hsecond
      refine ⟨fun hv2 => stops _ (hsecond.trans (operandFault_cons_badPc hv2)), fun hv2 f hf => ?_⟩
      rw [← h3]
      exact stops _ (hsecond.trans (operandFault_cons_badOperand hv2 hf))

/-- Settles O14. -/
theorem faultEntryWritesLatchAndFlag : Obligations.FaultEntryWritesLatchAndFlag := by
  unfold Obligations.FaultEntryWritesLatchAndFlag
  intro k v c s
  obtain ⟨-, hstop⟩ := no_step_of_not_running (raise_running s k v c)
  refine ⟨rfl, ?_, hstop⟩
  cases k <;> rfl

/-- Settles O15: with a record latched the core does not run, so the first step of a run would already be its last. -/
theorem latchWrittenOnce : Obligations.LatchWrittenOnce := by
  unfold Obligations.LatchWrittenOnce
  intro s t r hi hreach hr
  have hrun : s.running = false := by
    by_contra h
    simp [hi.latch (by simpa using h)] at hr
  induction hreach with
  | refl => rfl
  | tail _ hstep ih =>
    subst ih
    obtain ⟨hnone, -⟩ := no_step_of_not_running hrun
    rw [step_eq_cycle, hnone] at hstep
    cases hstep

end Sys2Proof.Machine
end

section
/-! The instructions one by one (files 41 to 46 of the spec), each from its transition. -/
namespace Sys2Proof.Machine

/-! Instructions that pass their checks -/

/-- A well-formed instruction with its operand cells inside memory is its transition, `pc` past the operands. -/
theorem exec_of_wellFormed {i : Instr} {s : State} (hw : WellFormed i = true) (hroom : CanFetch i.operands.length s) :
    exec i s = transition i (s.advance i.operands.length) :=
  exec_of_faultOf_none (faultOf_none_of_wellFormed hw hroom)

/-- A step at a well-formed instruction with all its cells inside memory. -/
theorem step_of_wellFormed {i : Instr} {s : State} (hr : s.running = true) (hd : decodedAt s = .ok i)
    (hw : WellFormed i = true) (hroom : CanFetch (i.operands.length + 1) s) :
    step s = transition i (s.advance (i.operands.length + 1)) := by
  obtain ⟨hv, hops⟩ := canFetch_succ hroom
  rw [step_of_decodedAt hr hv hd, exec_of_wellFormed hw hops, advance_advance, Nat.add_comm]

/-- The outcome of an instruction that writes register `r` alone, in terms of any property `P` of the value written. -/
theorem next_setReg {o : Out} {s : State} {n : Nat} {r : RegNo} {v : Word} (P : Word → Prop)
    (h : o = .next ((s.advance n).setReg r v)) (hroom : CanFetch n s) (hv : P v) :
    ∃ t, o = .next t ∧ P (t.getReg r) ∧ (∀ q, q ≠ r → t.getReg q = s.getReg q) ∧
      t = { s with x := t.x, pc := t.pc } ∧ t.pc.toInt = s.pc.toInt + n :=
  ⟨_, h, by rwa [getReg_setReg_same], fun _ hq => getReg_setReg_other _ hq v, rfl, canFetch_advance hroom⟩

/-- The outcome of an instruction that moves `pc` past its operands and does nothing else. -/
theorem next_advance {o : Out} {s : State} {n : Nat} (h : o = .next (s.advance n)) (hroom : CanFetch n s) :
    ∃ t, o = .next t ∧ t = { s with pc := t.pc } ∧ t.pc.toInt = s.pc.toInt + n :=
  ⟨_, h, rfl, canFetch_advance hroom⟩

/-- Room for `m + n` cells is room for `m`, and behind them for `n`. -/
theorem canFetch_add {m n : Nat} {s : State} (h : CanFetch (m + n) s) : CanFetch m s ∧ CanFetch n (s.advance m) := by
  obtain ⟨h0, hmn⟩ := h
  push_cast at hmn
  have hm : CanFetch m s := ⟨h0, by omega⟩
  have hpc := canFetch_advance hm
  exact ⟨hm, by omega, by omega⟩

/-! Data movement -/

/-- Settles O16. -/
theorem loadCopiesCellToRegister : Obligations.LoadCopiesCellToRegister := by
  unfold Obligations.LoadCopiesCellToRegister
  intro s reg addr hreg haddr hroom
  have hw : WellFormed (.load reg addr) = true := by simp [WellFormed, hreg, haddr]
  exact next_setReg (· = s.memRead (cellNo addr)) (exec_of_wellFormed hw hroom) hroom rfl

/-- Settles O17. -/
theorem storeCopiesRegisterToCell : Obligations.StoreCopiesRegisterToCell := by
  unfold Obligations.StoreCopiesRegisterToCell
  intro s reg addr hm hreg haddr hroom
  have hw : WellFormed (.store reg addr) = true := by simp [WellFormed, hreg, haddr]
  exact ⟨_, exec_of_wellFormed hw hroom, (Memory.read_write hm).trans (if_pos rfl),
    fun a ha => (Memory.read_write hm).trans (if_neg ha), rfl, canFetch_advance hroom⟩

/-- Settles O18. -/
theorem movCopiesRegister : Obligations.MovCopiesRegister := by
  unfold Obligations.MovCopiesRegister
  intro s regDst regSrc hdst hsrc hroom
  have hw : WellFormed (.mov regDst regSrc) = true := by simp [WellFormed, hdst, hsrc]
  exact next_setReg (· = s.getReg (regNo regSrc)) (exec_of_wellFormed hw hroom) hroom rfl

/-! Stack -/

/-- Settles O19. -/
theorem pushAppendsRegister : Obligations.PushAppendsRegister := by
  unfold Obligations.PushAppendsRegister
  exact fun s reg hreg hroom =>
    ⟨_, exec_of_wellFormed (i := .push reg) hreg hroom, rfl, rfl, canFetch_advance hroom⟩

theorem transition_pop_top {reg v : Word} {s : State} {st : List Word} (h : s.stack = st ++ [v]) :
    transition (.pop reg) s = .next ((s.setStack st).setReg (regNo reg) v) := by
  rw [transition, pop_top h]

theorem transition_pop_empty {reg : Word} {s : State} (h : s.stack = []) : transition (.pop reg) s = .next s := by
  rw [transition, pop_empty h]

/-- Settles O20. -/
theorem popMovesTopToRegister : Obligations.PopMovesTopToRegister := by
  unfold Obligations.PopMovesTopToRegister
  intro s reg hreg hroom
  have hexec := exec_of_wellFormed (i := .pop reg) hreg hroom
  refine ⟨fun st v hs => ?_, fun hs => next_advance (hexec.trans (transition_pop_empty hs)) hroom⟩
  exact ⟨_, hexec.trans (transition_pop_top (s := s.advance 1) hs), rfl, getReg_setReg_same _ _ _,
    fun q hq => getReg_setReg_other _ hq v, rfl, canFetch_advance hroom⟩

/-- The instruction at `pc` depends on memory and `pc` alone. -/
theorem decodedAt_congr {s t : State} (hm : s.mem = t.mem) (hpc : s.pc = t.pc) : decodedAt s = decodedAt t := by
  simp only [decodedAt, cellsAt, memRead_eq, hm, hpc]

/-- Settles O21: the second step finds the POP, and on top of the stack what the first has pushed. -/
theorem pushThenPopMovesRegister : Obligations.PushThenPopMovesRegister := by
  unfold Obligations.PushThenPopMovesRegister
  intro s a b hr hroom hda hdb ha hb
  obtain ⟨hroom2, hroom2'⟩ := canFetch_add (m := 2) (n := 2) hroom
  obtain ⟨t, hpush, ht⟩ : ∃ t, step s = .next t ∧ t = (s.advance 2).setStack (s.stack ++ [s.getReg (regNo a)]) :=
    ⟨_, step_of_wellFormed hr hda ha hroom2, rfl⟩
  have hdt : decodedAt t = .ok (.pop b) := by
    rw [← hdb, ht]
    exact decodedAt_congr rfl rfl
  have hpop : step t = .next (((t.advance 2).setStack s.stack).setReg (regNo b) (s.getReg (regNo a))) :=
    (step_of_wellFormed (by rwa [ht]) hdt hb (by rwa [ht])).trans (transition_pop_top (by rw [ht]; rfl))
  subst ht
  refine ⟨_, _, hpush, hpop, getReg_setReg_same _ _ _, fun q hq => by simp [getReg_setReg_other _ hq], rfl, ?_⟩
  calc ((s.advance 2).advance 2).pc.toInt = (s.advance 2).pc.toInt + 2 := canFetch_advance hroom2'
    _ = s.pc.toInt + 4 := by rw [canFetch_advance hroom2]; push_cast; ring

/-- Settles O22. -/
theorem stackBoundRefusesOnlyWhenFull : Obligations.StackBoundRefusesOnlyWhenFull := by
  unfold Obligations.StackBoundRefusesOnlyWhenFull
  exact fun v s k c => ⟨pushWithin_none v s k, fun h => if_pos h, fun h => if_neg (by omega)⟩

/-! Arithmetic -/

/-- Settles O23, by the congruence of each ALU operation. -/
theorem addSubMulWrapAround : Obligations.AddSubMulWrapAround := by
  unfold Obligations.AddSubMulWrapAround
  intro s reg1 reg2 h1 h2 hroom i z hi
  have hw : (validReg reg1 && validReg reg2) = true := by simp [h1, h2]
  obtain ⟨rfl, rfl⟩ | ⟨rfl, rfl⟩ | ⟨rfl, rfl⟩ := hi
  · exact next_setReg (Wraps · _) (exec_of_wellFormed hw hroom) hroom (aluAdd_wraps _ _)
  · exact next_setReg (Wraps · _) (exec_of_wellFormed hw hroom) hroom (aluSub_wraps _ _)
  · exact next_setReg (Wraps · _) (exec_of_wellFormed hw hroom) hroom (aluMul_wraps _ _)

/-- Settles O24. -/
theorem incDecWrapAround : Obligations.IncDecWrapAround := by
  unfold Obligations.IncDecWrapAround
  intro s reg hreg hroom i z hi
  obtain ⟨rfl, rfl⟩ | ⟨rfl, rfl⟩ := hi
  · exact next_setReg (Wraps · _) (exec_of_wellFormed hreg hroom) hroom (aluInc_wraps _)
  · exact next_setReg (Wraps · _) (exec_of_wellFormed hreg hroom) hroom (aluDec_wraps _)

/-- The library's truncated quotient is the one R94 words. -/
theorem isQuotient_tdiv (a b : Int) : IsQuotient a b (a.tdiv b) := by
  refine ⟨Int.natAbs_tdiv a b, ?_, ?_⟩
  · rintro (⟨ha, hb⟩ | ⟨ha, hb⟩ | rfl)
    · exact Int.tdiv_nonneg ha hb.le
    · exact Int.tdiv_nonneg_of_nonpos_of_nonpos ha.le hb.le
    · simp
  · rintro (⟨ha, hb⟩ | ⟨ha, hb⟩)
    · exact Int.tdiv_nonpos_of_nonneg_of_nonpos ha.le hb.le
    · rw [← neg_nonneg, ← Int.neg_tdiv]
      exact Int.tdiv_nonneg (by omega) hb.le

/-- The ALU's quotient is the library's on bit vectors. -/
theorem aluDiv_eq_sdiv (a b : Word) : aluDiv a b = a.sdiv b := by
  refine BitVec.eq_of_toInt_eq ?_
  rw [aluDiv, wrap, BitVec.toInt_ofInt, BitVec.toInt_sdiv]

/-- Settles O25: the library's bound on a quotient of words leaves `MIN / -1` alone to reduce. -/
theorem divisionTruncates : Obligations.DivisionTruncates := by
  unfold Obligations.DivisionTruncates
  refine fun a b _ => ⟨a.toInt.tdiv b.toInt, isQuotient_tdiv _ _, aluDiv_wraps a b, fun h => ?_, ?_⟩
  · rw [aluDiv_eq_sdiv]
    exact BitVec.toInt_sdiv_of_ne_or_ne a b (not_and_or.mp h)
  · rintro rfl rfl
    decide

theorem transition_div {reg1 reg2 : Word} {s : State} (h : s.getReg (regNo reg2) ≠ 0) :
    transition (.div reg1 reg2) s =
      .next (s.setReg (regNo reg1) (aluDiv (s.getReg (regNo reg1)) (s.getReg (regNo reg2)))) := if_neg h

theorem transition_div_zero {reg1 reg2 : Word} {s : State} (h : s.getReg (regNo reg2) = 0) :
    transition (.div reg1 reg2) s = .next s := if_pos h

/-- Settles O26. -/
theorem divDividesOrSkips : Obligations.DivDividesOrSkips := by
  unfold Obligations.DivDividesOrSkips
  intro s reg1 reg2 h1 h2 hroom
  have hexec := exec_of_wellFormed (i := .div reg1 reg2) (s := s) (by simp [WellFormed, h1, h2]) hroom
  refine ⟨fun hne => ?_, fun hzero => next_advance (hexec.trans (transition_div_zero hzero)) hroom⟩
  obtain ⟨t, ht, hframe⟩ :=
    next_setReg (Wraps · _) (hexec.trans (transition_div hne)) hroom (aluDiv_wraps _ _)
  exact ⟨t, _, ht, isQuotient_tdiv _ _, hframe⟩

/-! Control transfer -/

/-- Settles O27. -/
theorem jmpSetsPc : Obligations.JmpSetsPc := by
  unfold Obligations.JmpSetsPc
  exact fun s addr haddr hroom => exec_of_wellFormed (i := .jmp addr) haddr hroom

/-- Settles O28. -/
theorem conditionalJumpsTestRegisterZero : Obligations.ConditionalJumpsTestRegisterZero := by
  unfold Obligations.ConditionalJumpsTestRegisterZero
  intro s addr haddr hroom
  have hjz := exec_of_wellFormed (i := .jz addr) haddr hroom
  have hjnz := exec_of_wellFormed (i := .jnz addr) haddr hroom
  refine ⟨_, canFetch_advance hroom, fun hzero => ?_, fun hne => ?_⟩
  · have hcond : zeroCondition (s.advance 1) = true := (zeroCondition_iff _).mpr hzero
    exact ⟨hjz.trans (congrArg _ (if_pos hcond)), hjnz.trans (congrArg _ (if_pos hcond))⟩
  · have hcond : ¬ zeroCondition (s.advance 1) = true := fun h => hne ((zeroCondition_iff _).mp h)
    exact ⟨hjz.trans (congrArg _ (if_neg hcond)), hjnz.trans (congrArg _ (if_neg hcond))⟩

/-- Settles O29. -/
theorem callPushesReturnAddress : Obligations.CallPushesReturnAddress := by
  unfold Obligations.CallPushesReturnAddress
  exact fun s addr haddr hroom => ⟨_, canFetch_advance hroom, exec_of_wellFormed (i := .call addr) haddr hroom⟩

theorem exec_ret_top {s : State} {st : List Word} {v : Word} (h : s.stack = st ++ [v]) :
    exec .ret s = .next ((s.setStack st).setPc v) := by
  rw [exec_of_faultOf_none rfl, transition, pop_top (s := s.advance _) h]
  rfl

theorem exec_ret_empty {s : State} (h : s.stack = []) : exec .ret s = .next s := by
  rw [exec_of_faultOf_none rfl, transition, pop_empty (s := s.advance _) h]
  simp [Instr.operands]

/-- Settles O30. -/
theorem retPopsPc : Obligations.RetPopsPc := by
  unfold Obligations.RetPopsPc
  exact fun s => ⟨fun st v => exec_ret_top, exec_ret_empty⟩

/-- Settles O31: the CALL leaves the index after its operand on top, and the RET takes it from there. -/
theorem retResumesAfterCall : Obligations.RetResumesAfterCall := by
  unfold Obligations.RetResumesAfterCall
  intro s addr hr hroom hd haddr
  refine ⟨_, step_of_wellFormed hr hd (by exact haddr) hroom, rfl, fun u hur huv hud hstack => ?_⟩
  have hret : step u = exec .ret (u.advance 1) := step_of_decodedAt hur huv hud
  exact ⟨_, hret.trans (exec_ret_top (s := u.advance 1) hstack), canFetch_advance hroom, rfl⟩

/-- Settles O32: one iteration gives the state back. -/
theorem jmpToItselfNeverEnds : Obligations.JmpToItselfNeverEnds := by
  unfold Obligations.JmpToItselfNeverEnds
  intro s hr hroom hd n
  obtain ⟨hv, -⟩ := canFetch_succ (n := 1) hroom
  have hstep : step s = .next s := step_of_wellFormed hr hd hv hroom
  induction n with
  | zero => rfl
  | succ n ih => rw [runFor_succ_of_step hr hstep, ih]

/-! Comparison and bitwise -/

/-- What CMP's value says of the two registers (R16). -/
theorem equalFlag_toInt (a b : Word) :
    (a.toInt = b.toInt → (equalFlag a b).toInt = 1) ∧ (a.toInt ≠ b.toInt → (equalFlag a b).toInt = 0) := by
  rw [ne_eq, BitVec.toInt_inj, equalFlag]
  constructor <;> intro h
  · rw [if_pos h]; decide
  · rw [if_neg h]; decide

/-- Settles O33. -/
theorem cmpWritesEquality : Obligations.CmpWritesEquality := by
  unfold Obligations.CmpWritesEquality
  intro s reg1 reg2 h1 h2 hroom
  have hw : WellFormed (.cmp reg1 reg2) = true := by simp [WellFormed, h1, h2]
  obtain ⟨t, ht, ⟨heq, hne⟩, hframe⟩ :=
    next_setReg (fun w => (_ → w.toInt = 1) ∧ (_ → w.toInt = 0)) (exec_of_wellFormed hw hroom) hroom
      (equalFlag_toInt (s.getReg (regNo reg1)) (s.getReg (regNo reg2)))
  exact ⟨t, ht, heq, hne, hframe⟩

/-- Each of the 32 bits of `w` is `f` of the bits of `a` and `b` (R110). -/
def BitsOf (f : Bool → Bool → Bool) (a b w : Word) : Prop :=
  ∀ n, n < 32 → w.getLsbD n = f (a.getLsbD n) (b.getLsbD n)

theorem aluAnd_bits (a b : Word) : BitsOf (fun p q => p && q) a b (aluAnd a b) := fun _ _ => BitVec.getLsbD_and

theorem aluOr_bits (a b : Word) : BitsOf (fun p q => p || q) a b (aluOr a b) := fun _ _ => BitVec.getLsbD_or

theorem aluXor_bits (a b : Word) : BitsOf (fun p q => p != q) a b (aluXor a b) := fun _ _ => BitVec.getLsbD_xor

/-- Settles O34. -/
theorem bitwiseActsOnEachBit : Obligations.BitwiseActsOnEachBit := by
  unfold Obligations.BitwiseActsOnEachBit
  intro s reg1 reg2 h1 h2 hroom i f hi
  have hw : (validReg reg1 && validReg reg2) = true := by simp [h1, h2]
  obtain ⟨w, hexec, hbits⟩ : ∃ w, exec i s = .next ((s.advance 2).setReg (regNo reg1) w) ∧
      BitsOf f (s.getReg (regNo reg1)) (s.getReg (regNo reg2)) w := by
    obtain ⟨rfl, rfl⟩ | ⟨rfl, rfl⟩ | ⟨rfl, rfl⟩ := hi
    · exact ⟨_, exec_of_wellFormed hw hroom, aluAnd_bits _ _⟩
    · exact ⟨_, exec_of_wellFormed hw hroom, aluOr_bits _ _⟩
    · exact ⟨_, exec_of_wellFormed hw hroom, aluXor_bits _ _⟩
  exact next_setReg (BitsOf f _ _) hexec hroom hbits

/-- NOT in integer terms: the complement is minus the value minus 1 (R114). -/
theorem aluNot_toInt (a : Word) : (aluNot a).toInt = -a.toInt - 1 := by
  have ha := a.isLt
  rw [aluNot, BitVec.toInt_eq_toNat_cond, BitVec.toInt_eq_toNat_cond, BitVec.toNat_not]
  split <;> split <;> omega

theorem aluNot_getLsbD (a : Word) {n : Nat} (hn : n < 32) : (aluNot a).getLsbD n = !a.getLsbD n := by
  simp [aluNot, hn]

/-- Settles O35. -/
theorem notComplements : Obligations.NotComplements := by
  unfold Obligations.NotComplements
  intro s reg hreg hroom
  obtain ⟨t, ht, ⟨hint, hbits⟩, hframe⟩ :=
    next_setReg (fun w => w.toInt = -(s.getReg (regNo reg)).toInt - 1 ∧
        ∀ n, n < 32 → w.getLsbD n = !(s.getReg (regNo reg)).getLsbD n)
      (exec_of_wellFormed (i := .not reg) hreg hroom) hroom ⟨aluNot_toInt _, fun _ => aluNot_getLsbD _⟩
  exact ⟨t, ht, hint, hbits, hframe⟩

/-! System and I/O -/

/-- Settles O36. -/
theorem intAndOutEmitOneEvent : Obligations.IntAndOutEmitOneEvent := by
  unfold Obligations.IntAndOutEmitOneEvent
  exact fun s => ⟨fun code hroom => ⟨_, canFetch_advance hroom, exec_of_wellFormed (i := .int code) rfl hroom⟩,
    fun port reg hreg hroom => ⟨_, canFetch_advance hroom, exec_of_wellFormed (i := .out port reg) hreg hroom⟩⟩

/-- IN with an answer `v` that leaves the provider `p` (R120). -/
theorem transition_inp_answered {reg port v : Word} {s : State} {p : Provider}
    (h : s.provider.answer port = some (v, p)) :
    transition (.inp reg port) s = .next (((s.setProvider p).setReg (regNo reg) v).emit (.input port v)) := by
  rw [transition, h]

theorem transition_inp_waiting {reg port : Word} {s : State} (h : s.provider.hasAnswer = false) :
    transition (.inp reg port) s = .fault .inputNotSupplied := by
  have hnone : s.provider.answer port = none := by
    rw [← Option.not_isSome_iff_eq_none, answer_isSome, h]
    simp
  rw [transition, hnone]

theorem exec_inp_answered {reg port v : Word} {s : State} {p : Provider} (hreg : validReg reg = true)
    (hroom : CanFetch 2 s) (h : s.provider.answer port = some (v, p)) :
    ∃ t : State, exec (.inp reg port) s = .next t ∧ t.getReg (regNo reg) = v ∧ t.io = s.io ++ [IoEvent.input port v] ∧
      t.provider = p ∧ (∀ q, q ≠ regNo reg → t.getReg q = s.getReg q) ∧
      t = { s with x := t.x, io := t.io, provider := t.provider, pc := t.pc } ∧ t.pc.toInt = s.pc.toInt + 2 :=
  ⟨_, (exec_of_wellFormed (i := .inp reg port) hreg hroom).trans (transition_inp_answered (s := s.advance 2) h),
    getReg_setReg_same _ _ _, rfl, rfl, fun _ hq => getReg_setReg_other _ hq v, rfl, canFetch_advance hroom⟩

/-- Settles O37. -/
theorem inWritesTheAnswer : Obligations.InWritesTheAnswer := by
  unfold Obligations.InWritesTheAnswer
  intro s reg port hreg hroom
  refine ⟨fun v vs hp => exec_inp_answered hreg hroom (by rw [hp, Provider.answer]), fun n hp => ?_⟩
  obtain ⟨t, ht⟩ := exec_inp_answered hreg hroom (show s.provider.answer port = _ by rw [hp, Provider.answer])
  exact ⟨t, _, ht⟩

/-- Settles O38: the request is behind the operand checks. -/
theorem inWaitsForAnAnswer : Obligations.InWaitsForAnAnswer := by
  unfold Obligations.InWaitsForAnAnswer
  refine fun s reg port => ⟨fun hreg hroom hnone => ?_, fun hreg hroom => ?_⟩
  · exact (exec_of_wellFormed (i := .inp reg port) hreg hroom).trans (transition_inp_waiting hnone)
  · obtain ⟨hv, -⟩ := canFetch_succ hroom
    exact exec_of_faultOf_some (operandFault_cons_badOperand hv (by simp [operandCheck, hreg]))

end Sys2Proof.Machine
end

section
/-! Rules of the whole machine: reset, where `pc` can go, what no step reads, stores seen by the fetch, and the host's writes
(R18, R25, R31, R33, R49, R51, R60). -/
namespace Sys2Proof.Machine

/-! Reset -/

/-- Settles O48. -/
theorem resetState : Obligations.ResetState := by
  unfold Obligations.ResetState
  refine fun s => ⟨fun a => rfl, fun r => ?_, rfl, rfl, rfl, rfl, rfl, rfl⟩
  simp [applyReset, State.reset, State.getReg]

/-- Settles O49. -/
theorem resetHasTheInvariant : Obligations.ResetHasTheInvariant := by
  unfold Obligations.ResetHasTheInvariant
  exact ⟨Memory.wf_reset, fun _ => rfl, nofun, nofun⟩

/-! Where `pc` can go (R18) -/

/-- `pc` names a cell, or lies one past the last. -/
def PcInRange (v : Word) : Prop := 0 ≤ v.toInt ∧ v.toInt ≤ Config.memCap

theorem pcInRange_of_validIndex {v : Word} (h : validIndex v = true) : PcInRange v := by
  obtain ⟨h0, hlt⟩ := (validIndex_iff v).mp h
  exact ⟨h0, hlt.le⟩

theorem pcInRange_of_canFetch {s : State} (h : CanFetch 0 s) : PcInRange s.pc := by
  obtain ⟨h0, h1⟩ := h
  exact ⟨h0, by push_cast at h1; omega⟩

theorem pcInRange_advance {n : Nat} {s : State} (h : CanFetch n s) : PcInRange (s.advance n).pc := by
  obtain ⟨h0, hn⟩ := h
  rw [PcInRange, canFetch_advance ⟨h0, hn⟩]
  exact ⟨by omega, hn⟩

/-- The operand fetches stop inside memory, or one past its last cell. -/
theorem pcInRange_of_operandFault {op : Word} {before : List Word} {ops : List (OperandKind × Word)} {s : State}
    {r : FaultRecord} (hs : CanFetch 0 s) (h : operandFault op s.pc before ops = some r) : PcInRange r.pc := by
  induction ops generalizing before s with
  | nil => cases h
  | cons o rest ih =>
    obtain ⟨k, v⟩ := o
    obtain hpc | ⟨hpc, f, hf⟩ | ⟨hpc, hv⟩ := operand_cases s.pc k v
    · rw [operandFault_cons_badPc hpc] at h
      cases h
      exact pcInRange_of_canFetch hs
    · rw [operandFault_cons_badOperand hpc hf] at h
      cases h
      exact pcInRange_of_canFetch (s := s.advance 1) (canFetch_zero_advance_one hpc)
    · rw [operandFault_cons_ok hpc hv] at h
      exact ih (s := s.advance 1) (canFetch_zero_advance_one hpc) h

/-- Every entry of the table of R20 but RET's is in range for a well-formed instruction. -/
theorem pcInRange_pcAfter {i : Instr} {s : State} (hw : WellFormed i = true) (hroom : CanFetch i.operands.length s)
    (hret : i ≠ .ret) : PcInRange (pcAfter i s) := by
  have hnext : PcInRange (s.pc + BitVec.ofNat 32 i.operands.length) := pcInRange_advance hroom
  cases i with
  | ret => exact absurd rfl hret
  | jmp _ | call _ => exact pcInRange_of_validIndex hw
  | jz _ | jnz _ =>
    simp only [pcAfter]
    split
    · exact pcInRange_of_validIndex hw
    · exact hnext
  | _ => exact hnext

/-- Settles O52: a fault entry stops in range or where the opcode fetch failed, and a RET that pops is the one transition that
can leave the range. -/
theorem pcLeavesMemoryInTwoWaysOnly : Obligations.PcLeavesMemoryInTwoWaysOnly := by
  unfold Obligations.PcLeavesMemoryInTwoWaysOnly
  intro lenient s t h
  obtain ⟨-, hn⟩ := cycle_next h
  cases hn with
  | badPc hv => exact .inr (.inr ⟨hv, rfl⟩)
  | unknown _ hv _ | skipped _ hv _ =>
    exact .inl (pcInRange_of_canFetch (s := s.advance 1) (canFetch_zero_advance_one hv))
  | faulted i r hv _ hf => exact .inl (pcInRange_of_operandFault (s := s.advance 1) (canFetch_zero_advance_one hv) hf)
  | completed i _ hv hd hf ht =>
    have hroom := canFetch_of_faultOf_none (canFetch_zero_advance_one hv) hf
    rw [transition_pc ht]
    by_cases hi : i = .ret
    · subst hi
      cases htop : s.stack.getLast? with
      | none =>
        simp only [pcAfter, advance_stack, htop, Option.getD_none]
        exact .inl (pcInRange_advance hroom)
      | some v => exact .inr (.inl ⟨hd, by simp [pcAfter, htop]⟩)
    · exact .inl (pcInRange_pcAfter (wellFormed_of_faultOf_none hf) hroom hi)

/-! The history along a run (R31) -/

theorem io_prefix_of_step {s t : State} (h : step s = .next t) : s.io <+: t.io := by
  obtain ⟨-, hn⟩ := cycle_next h
  cases hn with
  | badPc _ | unknown _ _ _ | skipped _ _ _ | faulted _ _ _ _ _ => exact List.prefix_refl _
  | completed i _ _ _ _ ht =>
    rw [transition_io ht]
    exact List.prefix_append _ _

/-- Settles O53. -/
theorem historyOnlyGrows : Obligations.HistoryOnlyGrows := by
  unfold Obligations.HistoryOnlyGrows
  intro s t hreach
  induction hreach with
  | refl => exact List.prefix_refl _
  | tail _ hstep ih => exact ih.trans (io_prefix_of_step hstep)

/-! What no step reads (R25, R31) -/

/-- A change `g` of the latch or the history that commutes with every operation: `g` leaves the fields a step reads. -/
structure Unread (g : State → State) : Prop where
  mem : ∀ s, (g s).mem = s.mem
  x : ∀ s, (g s).x = s.x
  stack : ∀ s, (g s).stack = s.stack
  pc : ∀ s, (g s).pc = s.pc
  running : ∀ s, (g s).running = s.running
  provider : ∀ s, (g s).provider = s.provider
  setReg : ∀ s r v, (g s).setReg r v = g (s.setReg r v)
  setPc : ∀ s v, (g s).setPc v = g (s.setPc v)
  memWrite : ∀ s a v, (g s).memWrite a v = g (s.memWrite a v)
  setStack : ∀ s st, (g s).setStack st = g (s.setStack st)
  setRunning : ∀ s b, (g s).setRunning b = g (s.setRunning b)
  setProvider : ∀ s p, (g s).setProvider p = g (s.setProvider p)
  emit : ∀ s e, (g s).emit e = g (s.emit e)
  stopped : ∀ s r, (g s).stopped r = g (s.stopped r)

/-- An outcome with its next state changed. -/
def mapNext (g : State → State) : Out → Out
  | .next t => .next (g t)
  | .fault r => .fault r
  | .refused r => .refused r

namespace Unread

variable {g : State → State} (hg : Unread g)
include hg

theorem getReg (s : State) (r : RegNo) : (g s).getReg r = s.getReg r := by
  simp only [State.getReg, hg.x]

theorem memRead (s : State) (a : Nat) : (g s).memRead a = s.memRead a := by
  simp only [State.memRead, hg.mem]

theorem zeroCondition (s : State) : Machine.zeroCondition (g s) = Machine.zeroCondition s := by
  simp only [Machine.zeroCondition, hg.getReg]

theorem advance (s : State) (n : Nat) : (g s).advance n = g (s.advance n) := by
  simp only [State.advance, hg.pc, hg.setPc]

theorem pop (s : State) : Machine.pop (g s) = (Machine.pop s).map fun a => (a.1, g a.2) := by
  obtain ⟨hs, hp⟩ | ⟨st, v, hs, hp⟩ := pop_cases s
  · rw [hp, pop_empty (by rw [hg.stack, hs])]
    rfl
  · rw [hp, pop_top (by rw [hg.stack, hs]), hg.setStack]
    rfl

/-- The transition of the changed state is the changed transition. -/
theorem transition (i : Instr) (s : State) :
    Machine.transition i (g s) = mapNext g (Machine.transition i s) := by
  cases i with
  | pop _ | ret =>
    rw [Machine.transition, Machine.transition, hg.pop]
    cases Machine.pop s <;> simp [mapNext, hg.setReg, hg.setPc]
  | div _ _ =>
    rw [Machine.transition, Machine.transition, hg.getReg]
    split <;> simp [mapNext, binaryInto, hg.getReg, hg.setReg]
  | jz _ | jnz _ =>
    rw [Machine.transition, Machine.transition, hg.zeroCondition]
    split <;> simp [mapNext, hg.setPc]
  | inp _ port =>
    rw [Machine.transition, Machine.transition, hg.provider]
    cases s.provider.answer port <;> simp [mapNext, hg.setProvider, hg.setReg, hg.emit]
  | _ =>
    simp [Machine.transition, mapNext, binaryInto, unaryInto, hg.getReg, hg.memRead, hg.stack, hg.pc, hg.setReg, hg.setPc,
      hg.memWrite, hg.setStack, hg.setRunning, hg.emit]

theorem decodedAt (s : State) : Machine.decodedAt (g s) = Machine.decodedAt s := decodedAt_congr (hg.mem s) (hg.pc s)

theorem faultOf (i : Instr) (s : State) : Machine.faultOf i (g s) = Machine.faultOf i s := by
  simp only [Machine.faultOf, hg.pc]

theorem exec (i : Instr) (s : State) : Machine.exec i (g s) = mapNext g (Machine.exec i s) := by
  cases hf : Machine.faultOf i s with
  | some r =>
    rw [exec_of_faultOf_some hf, exec_of_faultOf_some ((hg.faultOf i s).trans hf), hg.stopped]
    rfl
  | none =>
    rw [exec_of_faultOf_none hf, exec_of_faultOf_none ((hg.faultOf i s).trans hf), hg.advance, hg.transition]

/-- The step of the changed state is the changed step. -/
theorem cycle (lenient : Bool) (s : State) : Machine.cycle lenient (g s) = mapNext g (Machine.cycle lenient s) := by
  obtain ⟨hr, hc⟩ | ⟨hr, hv, -⟩ | ⟨hr, hv, i, hd, hc⟩ | ⟨hr, hv, e, he, hc⟩ := cycle_cases lenient s
  · obtain ⟨hnone, -⟩ := no_step_of_not_running ((hg.running s).trans hr)
    rw [hnone, hc]
    rfl
  · rw [cycle_of_badPc hr hv, cycle_of_badPc ((hg.running s).trans hr) (by rwa [hg.pc]), hg.pc, hg.stopped]
    rfl
  · rw [hc, cycle_of_decodedAt ((hg.running s).trans hr) (by rwa [hg.pc]) ((hg.decodedAt s).trans hd), hg.advance, hg.exec]
  · have ho := opcodeOf_of_decodedAt_error he
    rw [hc, cycle_of_unknown ((hg.running s).trans hr) (by rwa [hg.pc]) (by rwa [hg.memRead, hg.pc])]
    cases lenient
    · rw [unknownOpcode_strict, unknownOpcode_strict, hg.memRead, hg.pc, hg.stopped]
      rfl
    · exact congrArg _ (hg.advance s 1)

end Unread

/-- The history with entries put before it. -/
def ioAfter (before : List IoEvent) (s : State) : State := { s with io := before ++ s.io }

theorem unread_ioAfter (before : List IoEvent) : Unread (ioAfter before) := by
  constructor
  case emit => exact fun s e => by simp [ioAfter, State.emit]
  all_goals intros; rfl

/-- Settles O54: from the state without a history, the step adds its entries behind any history put before. -/
theorem historyIsNeverRead : Obligations.HistoryIsNeverRead := by
  unfold Obligations.HistoryIsNeverRead
  intro lenient s io'
  have hstep := fun io => (unread_ioAfter io).cycle lenient { s with io := [] }
  have hs : ∀ io, ioAfter io { s with io := [] } = { s with io := io } := fun io => by simp [ioAfter]
  simp only [hs] at hstep
  rw [hstep io', show cycle lenient s = _ from hstep s.io]
  cases cycle lenient { s with io := [] } with
  | next t => exact ⟨by rintro _ ⟨⟩; exact ⟨t.io, rfl, rfl⟩, nofun⟩
  | fault r => exact ⟨nofun, fun f hf => hf⟩
  | refused r => exact ⟨nofun, nofun⟩

/-- An empty latch with some content put in; a latch that holds a record keeps it. -/
def latchFilled (f : Option FaultRecord) (s : State) : State := { s with fault := s.fault.or f }

theorem unread_latchFilled (f : Option FaultRecord) : Unread (latchFilled f) := by
  constructor
  all_goals intros; rfl

theorem latchFilled_eq (f : Option FaultRecord) (s : State) :
    latchFilled f s = if s.fault.isSome then s else { s with fault := f } := by
  obtain ⟨mem, x, stack, pc, running, latch, io, provider⟩ := s
  cases latch <;> rfl

/-- Settles O55: a content put into the empty latch stays through the step, unless the step latches a record. -/
theorem latchIsNeverRead : Obligations.LatchIsNeverRead := by
  unfold Obligations.LatchIsNeverRead
  intro lenient s f hl
  have hs : { s with fault := f } = latchFilled f s := by simp [latchFilled, hl]
  rw [hs, (unread_latchFilled f).cycle]
  exact ⟨fun t ht => by rw [ht, ← latchFilled_eq]; rfl, fun r hr => by rw [hr]; rfl⟩

/-! Stores and host writes (R49, R51) -/

/-- Settles O56: the fetch reads the cell the STORE has written. -/
theorem storeIsSeenByTheFetch : Obligations.StoreIsSeenByTheFetch := by
  unfold Obligations.StoreIsSeenByTheFetch
  intro s reg addr hr hm hroom hd hreg haddr
  have hw : WellFormed (.store reg addr) = true := by simp [WellFormed, hreg, haddr]
  refine ⟨_, step_of_wellFormed hr hd hw hroom, fun u c k hmem hpc => ?_⟩
  have hread : u.memRead (cellNo u.pc) = s.getReg (regNo reg) := by
    rw [memRead_eq, hmem, hpc]
    exact (Memory.read_write hm).trans (if_pos rfl)
  rw [fetch, consume_ok (by rwa [hpc]), hread]
  rfl

/-- Settles O57: three zero cells are decoded as a LOAD of cell 0 into register 0. -/
theorem zeroCellsLoadRegisterZero : Obligations.ZeroCellsLoadRegisterZero := by
  unfold Obligations.ZeroCellsLoadRegisterZero
  intro s hr hroom h0 h1 h2
  have hd : decodedAt s = .ok (.load 0 0) := by
    rw [decodedAt, cellsAt, h0, h1, h2]
    rfl
  exact next_setReg (· = s.memRead 0) (step_of_wellFormed hr hd rfl hroom) hroom rfl

/-- Settles O58. -/
theorem hostWriteReplacesOneCellOrIsRefused : Obligations.HostWriteReplacesOneCellOrIsRefused := by
  unfold Obligations.HostWriteReplacesOneCellOrIsRefused
  refine fun s index v hm => ⟨fun hr h0 hlt => ?_, fun hr hbad => by simp [hostWrite, hr, hbad],
    fun hr => by simp [hostWrite, hr]⟩
  exact ⟨s.memWrite index.toNat v, by simp [hostWrite, hr, h0, hlt], rfl, Memory.wf_write v (by omega) hm,
    (Memory.read_write hm).trans (if_pos rfl), fun a ha => (Memory.read_write hm).trans (if_neg ha)⟩

end Sys2Proof.Machine
end
